-- ==== Sys2Proof/Config.lean ====
section
/-! DEFINITION. The implementation parameters of 00_scope.md R9 as one configuration record with its only admitted
instance, and the FREE VALUES: what the spec leaves to the host or calls unspecified. A free value has no body, so no
proof can learn what it is. The model applies each to the plain counter `draws` of State. -/

namespace Sys2Proof

/-- The configuration record: the parameters of R9, each under its own name. -/
structure Parameters where
  /-- `MEM_SIZE`: bytes of memory, addresses 0 .. 4095. -/
  memSize     : Nat
  /-- `LOAD_OFFSET`: where the image is copied and where PC starts. -/
  loadOffset  : Nat
  /-- `MAX_IMAGE`: the largest image copied in full, `MEM_SIZE` - `LOAD_OFFSET`. -/
  maxImage    : Nat
  /-- `NUM_REGS`: general registers V0 .. VF. -/
  numRegs     : Nat
  /-- `REG_WIDTH`: bits per general register. -/
  regWidth    : Nat
  /-- `I_WIDTH`: bits of the index register I. -/
  iWidth      : Nat
  /-- `PC_WIDTH`: bits of the program counter, and so of a return address. -/
  pcWidth     : Nat
  /-- `DT_WIDTH`: bits of the delay timer DT. -/
  dtWidth     : Nat
  /-- `STACK_DEPTH`: return-address slots. -/
  stackDepth  : Nat
  /-- `FB_WIDTH`: framebuffer columns. -/
  fbWidth     : Nat
  /-- `FB_HEIGHT`: framebuffer rows. -/
  fbHeight    : Nat
  /-- `FB_CELLS`: framebuffer cells, `FB_WIDTH` x `FB_HEIGHT`. -/
  fbCells     : Nat
  /-- `INSTR_BYTES`: bytes per instruction. -/
  instrBytes  : Nat
  /-- `TIMER_PERIOD`: least milliseconds between two decrements of DT (R91, D20). -/
  timerPeriod : Nat
  deriving DecidableEq, Repr

namespace Config

/-- The parameters of this hardware: the values of R9. The model reads every parameter here. -/
abbrev hardware : Parameters where
  memSize     := 4096
  loadOffset  := 512
  maxImage    := 3584
  numRegs     := 16
  regWidth    := 8
  iWidth      := 16
  pcWidth     := 16
  dtWidth     := 8
  stackDepth  := 16
  fbWidth     := 64
  fbHeight    := 32
  fbCells     := 2048
  instrBytes  := 2
  timerPeriod := 16

/-- These values are the only admitted instance: a different value describes different hardware (R9). -/
def Admitted (p : Parameters) : Prop := p = hardware

/-- `MEM_SIZE` (R9). -/
abbrev memSize : Nat := hardware.memSize

/-- `LOAD_OFFSET` (R9). -/
abbrev loadOffset : Nat := hardware.loadOffset

/-- `MAX_IMAGE` (R9). -/
abbrev maxImage : Nat := hardware.maxImage

/-- `NUM_REGS` (R9). -/
abbrev numRegs : Nat := hardware.numRegs

/-- `REG_WIDTH` (R9). -/
abbrev regWidth : Nat := hardware.regWidth

/-- `I_WIDTH` (R9). -/
abbrev iWidth : Nat := hardware.iWidth

/-- `PC_WIDTH` (R9). -/
abbrev pcWidth : Nat := hardware.pcWidth

/-- `DT_WIDTH` (R9). -/
abbrev dtWidth : Nat := hardware.dtWidth

/-- `STACK_DEPTH` (R9). -/
abbrev stackDepth : Nat := hardware.stackDepth

/-- `FB_WIDTH` (R9). -/
abbrev fbWidth : Nat := hardware.fbWidth

/-- `FB_HEIGHT` (R9). -/
abbrev fbHeight : Nat := hardware.fbHeight

/-- `FB_CELLS` (R9). -/
abbrev fbCells : Nat := hardware.fbCells

/-- `INSTR_BYTES` (R9). -/
abbrev instrBytes : Nat := hardware.instrBytes

/-- `TIMER_PERIOD` (R9). -/
abbrev timerPeriod : Nat := hardware.timerPeriod

/-- FREE VALUE (R142, U7; log 2): the random byte the host supplies to the step that draws with this counter. -/
opaque randomByte : Nat → BitVec 8

/-- FREE VALUE (R47, R195; log 3): the milliseconds by which the host's clock has moved since the step before. A
natural number, so that successive readings never decrease. -/
opaque clockAdvance : Nat → Nat

/-- FREE VALUE (R104, U5; log 4): what each general register holds after a fatal fault. -/
opaque haltedV : Nat → Nat → BitVec regWidth

/-- FREE VALUE (R104; log 4): I after a fatal fault. -/
opaque haltedI : Nat → BitVec iWidth

/-- FREE VALUE (R104; log 4): PC after a fatal fault. -/
opaque haltedPC : Nat → BitVec pcWidth

/-- FREE VALUE (R104; log 4): DT after a fatal fault. -/
opaque haltedDT : Nat → BitVec dtWidth

/-- FREE VALUE (R104; log 4): last_tick after a fatal fault. -/
opaque haltedLastTick : Nat → Nat

/-- FREE VALUE (R104; log 4): SP after a fatal fault, within its range 0 .. 16. -/
opaque haltedSP : Nat → Fin (stackDepth + 1)

/-- FREE VALUE (R104; log 4): what each stack slot holds after a fatal fault. -/
opaque haltedStack : Nat → Nat → BitVec pcWidth

/-- FREE VALUE (R104; log 4): what each framebuffer cell holds after a fatal fault. -/
opaque haltedFb : Nat → Nat → BitVec 8

end Config

end Sys2Proof
end

