-- ==== Sys2Proof/Word.lean ====
section
/-! DEFINITION. The machine's word types: the widths of 10_state.md R18 and of the instruction fields of
30_encoding.md R72. -/

namespace Sys2Proof

/-- A memory byte, a framebuffer cell, an 8-bit operand `kk`: 8 bits (R13, R74). -/
abbrev Byte := BitVec 8

/-- An instruction word: 16 bits (R70). -/
abbrev Word := BitVec 16

/-- What a general register holds: `REG_WIDTH` bits (R9, R20). -/
abbrev RegValue := BitVec Config.regWidth

/-- What the index register I holds: `I_WIDTH` bits (R9, R28). -/
abbrev IndexValue := BitVec Config.iWidth

/-- What PC and a return-address slot hold: `PC_WIDTH` bits (R9, R23, R29). -/
abbrev CodeAddr := BitVec Config.pcWidth

/-- What the delay timer DT holds: `DT_WIDTH` bits (R9, R33). -/
abbrev TimerValue := BitVec Config.dtWidth

/-- A register selector `x` or `y`: a 4-bit field, so it always names one of the 16 registers (R12, R21). -/
abbrev Reg := BitVec 4

/-- A 4-bit row count or sub-opcode `n` (R12, R74). -/
abbrev Nibble := BitVec 4

/-- The 12-bit address field `nnn` (R12, R73). -/
abbrev Addr := BitVec 12

end Sys2Proof
end

