-- ==== Sys2Proof/Syntax.lean ====
section
/-! DEFINITION. The instructions: one constructor per row of spec/opcode_table.json (30_encoding.md R81, R89), its
operands the row's fields. -/

namespace Sys2Proof

/-- The 22 instructions and the unknown word, in the table's order. -/
inductive Instr where
  /-- 00E0 CLS, clear screen (R105). -/
  | cls
  /-- 00EE RET, return (R106). -/
  | ret
  /-- 1nnn JP nnn, jump (R110). -/
  | jp (nnn : Addr)
  /-- 2nnn CALL nnn, call (R111). -/
  | call (nnn : Addr)
  /-- 3xkk SE Vx, kk, skip if equal (R112). -/
  | se (x : Reg) (kk : Byte)
  /-- 4xkk SNE Vx, kk, skip if not equal (R113). -/
  | sne (x : Reg) (kk : Byte)
  /-- 6xkk LD Vx, kk, load immediate (R120). -/
  | ldImm (x : Reg) (kk : Byte)
  /-- 7xkk ADD Vx, kk, add immediate (R121). -/
  | addImm (x : Reg) (kk : Byte)
  /-- 8xy0 LD Vx, Vy, copy (R127). -/
  | ldReg (x y : Reg)
  /-- 8xy1 OR Vx, Vy (R128). -/
  | orReg (x y : Reg)
  /-- 8xy2 AND Vx, Vy (R129). -/
  | andReg (x y : Reg)
  /-- 8xy3 XOR Vx, Vy (R130). -/
  | xorReg (x y : Reg)
  /-- 8xy4 ADD Vx, Vy, add with carry (R131). -/
  | addReg (x y : Reg)
  /-- 8xy5 SUB Vx, Vy (R132). -/
  | sub (x y : Reg)
  /-- 8xy6 SHR Vx (R133). `y` is ignored by its meaning (R75) and kept so that no bit of the word is lost (log 10). -/
  | shr (x y : Reg)
  /-- 8xy7 SUBN Vx, Vy, reverse subtract (R134). -/
  | subn (x y : Reg)
  /-- 8xyE SHL Vx (R135). `y` is ignored by its meaning (R75) and kept so that no bit of the word is lost (log 10). -/
  | shl (x y : Reg)
  /-- Annn LD I, nnn, load index (R140). -/
  | ldI (nnn : Addr)
  /-- Cxkk RND Vx, kk, random byte masked (R141). -/
  | rnd (x : Reg) (kk : Byte)
  /-- Dxyn DRW Vx, Vy, n, draw sprite (R145). -/
  | drw (x y : Reg) (n : Nibble)
  /-- Fx07 LD Vx, DT, read the delay timer (R155). -/
  | ldVxDT (x : Reg)
  /-- Fx15 LD DT, Vx, set the delay timer (R156). -/
  | ldDTVx (x : Reg)
  /-- Every other word (R82, R96): the table's default row UNKNOWN, its one field the whole word. -/
  | unknown (w : Word)
  deriving DecidableEq, Repr

end Sys2Proof
end

