-- ==== Sys2Proof/WellFormed.lean ====
section
/-! DEFINITION. The opcode map (30_encoding.md R81) and which terms of Instr stand for a word. Every register,
immediate and address field is in range by its type, so one check is left: `unknown w` stands for a word only where
no row of the map matches `w` (R82, R89). -/

namespace Sys2Proof

/-- One row of the opcode map: a word `w` is the row's instruction when `w` and `mask` give `pattern` (R81). -/
structure OpcodeRow where
  pattern : Word
  mask    : Word
  deriving DecidableEq, Repr

/-- A word is the row's instruction (R81). -/
def OpcodeRow.holds (r : OpcodeRow) (w : Word) : Bool :=
  w &&& r.mask == r.pattern

/-- The 22 rows of R81, in its order; the catch-all row UNKNOWN is what matches none of them (R89). -/
def opcodeMap : List OpcodeRow :=
  [⟨0x00E0, 0xFFFF⟩, ⟨0x00EE, 0xFFFF⟩, ⟨0x1000, 0xF000⟩, ⟨0x2000, 0xF000⟩, ⟨0x3000, 0xF000⟩, ⟨0x4000, 0xF000⟩,
   ⟨0x6000, 0xF000⟩, ⟨0x7000, 0xF000⟩] ++
  [⟨0x8000, 0xF00F⟩, ⟨0x8001, 0xF00F⟩, ⟨0x8002, 0xF00F⟩, ⟨0x8003, 0xF00F⟩, ⟨0x8004, 0xF00F⟩, ⟨0x8005, 0xF00F⟩,
   ⟨0x8006, 0xF00F⟩, ⟨0x8007, 0xF00F⟩, ⟨0x800E, 0xF00F⟩] ++
  [⟨0xA000, 0xF000⟩, ⟨0xC000, 0xF000⟩, ⟨0xD000, 0xF000⟩, ⟨0xF007, 0xF0FF⟩, ⟨0xF015, 0xF0FF⟩]

/-- No row of the opcode map matches the word: it is an unknown instruction (R82). -/
def isUnknownWord (w : Word) : Bool :=
  opcodeMap.all fun r => !r.holds w

/-- The instruction stands for a word of the machine. -/
def Instr.wf : Instr → Bool
  | .unknown w => isUnknownWord w
  | .cls | .ret | .jp _ | .call _ | .se _ _ | .sne _ _ | .ldImm _ _ | .addImm _ _ => true
  | .ldReg _ _ | .orReg _ _ | .andReg _ _ | .xorReg _ _ | .addReg _ _ | .sub _ _ | .shr _ _ | .subn _ _ | .shl _ _ => true
  | .ldI _ | .rnd _ _ | .drw _ _ _ | .ldVxDT _ | .ldDTVx _ => true

end Sys2Proof
end

