-- ==== Sys2Proof/Decode.lean ====
section
/-! DEFINITION. The decoder, total on words and on byte lists (30_encoding.md R70 to R85), and after it the encoder
(R88). -/

namespace Sys2Proof

/-- `family = instr[15:12]` (R72). -/
def fieldFamily (w : Word) : Nibble := w.extractLsb' 12 4

/-- `x = instr[11:8]` (R72). -/
def fieldX (w : Word) : Reg := w.extractLsb' 8 4

/-- `y = instr[7:4]` (R72). -/
def fieldY (w : Word) : Reg := w.extractLsb' 4 4

/-- `n = instr[3:0]` (R72). -/
def fieldN (w : Word) : Nibble := w.extractLsb' 0 4

/-- `kk = instr[7:0]` (R72). -/
def fieldKK (w : Word) : Byte := w.extractLsb' 0 8

/-- `nnn = instr[11:0]` (R72). -/
def fieldNNN (w : Word) : Addr := w.extractLsb' 0 12

/-- Family 0 is matched on the whole word (R77). -/
def decodeFamily0 (w : Word) : Instr :=
  if w = 0x00E0#16 then .cls else if w = 0x00EE#16 then .ret else .unknown w

/-- Family 8 is selected by `n` alone (R78, R125). -/
def decodeFamily8 (w : Word) : Instr :=
  match (fieldN w).toNat with
  | 0x0 => .ldReg (fieldX w) (fieldY w)
  | 0x1 => .orReg (fieldX w) (fieldY w)
  | 0x2 => .andReg (fieldX w) (fieldY w)
  | 0x3 => .xorReg (fieldX w) (fieldY w)
  | 0x4 => .addReg (fieldX w) (fieldY w)
  | 0x5 => .sub (fieldX w) (fieldY w)
  | 0x6 => .shr (fieldX w) (fieldY w)
  | 0x7 => .subn (fieldX w) (fieldY w)
  | 0xE => .shl (fieldX w) (fieldY w)
  | _ => .unknown w

/-- Family F is selected by `kk` (R79). -/
def decodeFamilyF (w : Word) : Instr :=
  if fieldKK w = 0x07#8 then .ldVxDT (fieldX w) else if fieldKK w = 0x15#8 then .ldDTVx (fieldX w) else .unknown w

/-- Dispatch by family through the table of 16 slots, 12 of them populated (R76); families 1, 2, 3, 4, 6, 7, A, C, D
match on the family alone (R80); an unpopulated slot is unknown (R82). Total on every word (R85). -/
def decode (w : Word) : Instr :=
  match (fieldFamily w).toNat with
  | 0x0 => decodeFamily0 w
  | 0x1 => .jp (fieldNNN w)
  | 0x2 => .call (fieldNNN w)
  | 0x3 => .se (fieldX w) (fieldKK w)
  | 0x4 => .sne (fieldX w) (fieldKK w)
  | 0x6 => .ldImm (fieldX w) (fieldKK w)
  | 0x7 => .addImm (fieldX w) (fieldKK w)
  | 0x8 => decodeFamily8 w
  | 0xA => .ldI (fieldNNN w)
  | 0xC => .rnd (fieldX w) (fieldKK w)
  | 0xD => .drw (fieldX w) (fieldY w) (fieldN w)
  | 0xF => decodeFamilyF w
  | _ => .unknown w

/-- Why bytes hold no instruction. Every 16-bit word decodes (R85), so the one reason is a missing byte (R70). -/
inductive DecodeReject where
  /-- Fewer than two bytes are left: an instruction is exactly 2 bytes (R70). Safe: no instruction is made up. -/
  | truncated
  deriving DecidableEq, Repr

/-- Two bytes as a word, the first the most significant: `(hi : lo)` = hi * 256 + lo (R13, R53). -/
def wordOfBytes (hi lo : Byte) : Word := hi ++ lo

/-- The instruction at the head of a byte list and the bytes after it (R53, R70). -/
def decodeBytes : List Byte → Except DecodeReject (Instr × List Byte)
  | hi :: lo :: rest => .ok (decode (wordOfBytes hi lo), rest)
  | [_] => .error .truncated
  | [] => .error .truncated

/-- A word as the two bytes the memory holds, most significant first (R53). -/
def bytesOfWord (w : Word) : List Byte := [w.extractLsb' 8 8, w.extractLsb' 0 8]

/-- The word of a table row: the number `w` with every bit above `nbits` taken as 0. -/
def tableWord (nbits w : Nat) : Word := BitVec.ofNat 16 (w % 2 ^ nbits)

/-- The instruction the decoder reads from a row's word, laid out in memory order first. -/
def decodeTableWord (nbits w : Nat) : Option Instr :=
  match decodeBytes (bytesOfWord (tableWord nbits w)) with
  | .ok (i, _) => some i
  | .error _ => none

/-- Format NNN: family and a 12-bit address (R71). -/
def encodeNNN (family : Nibble) (nnn : Addr) : Word := family ++ nnn

/-- Format XKK: family, register, 8-bit immediate or sub-opcode (R71; XSUB has the same layout). -/
def encodeXKK (family : Nibble) (x : Reg) (kk : Byte) : Word := family ++ x ++ kk

/-- Format XYN: family, two registers, a sub-opcode or a row count (R71). -/
def encodeXYN (family : Nibble) (x y : Reg) (n : Nibble) : Word := family ++ x ++ y ++ n

/-- The word of an instruction (R88). -/
def encode : Instr → Word
  | .cls => 0x00E0
  | .ret => 0x00EE
  | .jp nnn => encodeNNN 0x1 nnn
  | .call nnn => encodeNNN 0x2 nnn
  | .se x kk => encodeXKK 0x3 x kk
  | .sne x kk => encodeXKK 0x4 x kk
  | .ldImm x kk => encodeXKK 0x6 x kk
  | .addImm x kk => encodeXKK 0x7 x kk
  | .ldReg x y => encodeXYN 0x8 x y 0x0
  | .orReg x y => encodeXYN 0x8 x y 0x1
  | .andReg x y => encodeXYN 0x8 x y 0x2
  | .xorReg x y => encodeXYN 0x8 x y 0x3
  | .addReg x y => encodeXYN 0x8 x y 0x4
  | .sub x y => encodeXYN 0x8 x y 0x5
  | .shr x y => encodeXYN 0x8 x y 0x6
  | .subn x y => encodeXYN 0x8 x y 0x7
  | .shl x y => encodeXYN 0x8 x y 0xE
  | .ldI nnn => encodeNNN 0xA nnn
  | .rnd x kk => encodeXKK 0xC x kk
  | .drw x y n => encodeXYN 0xD x y n
  | .ldVxDT x => encodeXKK 0xF x 0x07
  | .ldDTVx x => encodeXKK 0xF x 0x15
  | .unknown w => w

end Sys2Proof
end

