-- ==== Sys2Proof/Machine/State.lean ====
section
/-! DEFINITION. The machine's state as plain data: the record of 10_state.md R18, and beside it the inputs and the
output of a step (R47, R48), which R18 keeps outside the record and which a step function of the state alone must
hold. Its reset value (R42), and the reasons an interaction can stop. -/

namespace Sys2Proof.Machine

/-- A store of bytes as (address, byte) pairs: addresses strictly rising, no byte equal to what an unlisted address
reads as (Memory.wf and Memory.unlisted, Machine/Memory.lean). It holds `mem` and the framebuffer. -/
abbrev Memory := List Host.Cell

/-- The block's own status (R35). -/
inductive Phase where
  /-- From reset until the first step: the only phase in which an image may be loaded (R46). -/
  | ready
  /-- After a step that completed (R97). -/
  | running
  /-- After a fatal fault (R160); only reset leaves it (R98). -/
  | halted
  deriving DecidableEq, Repr

/-- The fatal fault kinds (R161). -/
inductive FatalKind where
  /-- CALL with 16 return addresses on the stack (R162). -/
  | stackOverflow
  /-- RET with the stack empty (R163). -/
  | stackUnderflow
  /-- A fetch with PC + 1 past memory (R164). -/
  | fetchOutOfBounds
  /-- A Dxyn whose rows reach past memory (R165). -/
  | spriteReadOutOfBounds
  deriving DecidableEq, Repr

/-- The fault record (R36): the kind, the PC of the step that faulted, the fetched word (0 where none was fetched). -/
structure FatalRecord where
  kind  : FatalKind
  pc    : CodeAddr
  instr : Word
  deriving DecidableEq, Repr

/-- A diagnostic for the sink (R166, R167): its content; the text is not fixed (U8). -/
inductive Warning where
  /-- A step met an unknown word: the word and its address (R166). -/
  | unknownInstruction (instr : Word) (pc : CodeAddr)
  /-- The load operation dropped bytes: the image's length (R167). -/
  | loadTruncated (length : Nat)
  deriving DecidableEq, Repr

/-- The inputs of one step request (R47): the host's clock in milliseconds since reset, and the random byte. -/
structure StepInput where
  now : Nat
  rnd : Byte
  deriving DecidableEq, Repr

/-- What the host can ask of the block (R44 to R47). -/
inductive Request where
  /-- `reset` (R45). -/
  | reset
  /-- `load(image)` (R46). -/
  | load (image : List Byte)
  /-- `step(now, rnd)` (R47). -/
  | step (inp : StepInput)
  deriving DecidableEq, Repr

/-- The result of a step (R48). -/
inductive StepResult where
  /-- The step completed, with at most one warning. -/
  | done (diag : Option Warning)
  /-- The step ended in a fatal fault. -/
  | fatal (record : FatalRecord)
  deriving DecidableEq, Repr

/-- The machine. -/
structure State where
  /-- `mem`: 4096 bytes (R37). -/
  mem      : Memory
  /-- `V[0]` .. `V[15]` (R19, R20). -/
  V        : Vector RegValue Config.numRegs
  /-- `I`, the index register (R28). -/
  I        : IndexValue
  /-- `PC`, the program counter (R23). -/
  PC       : CodeAddr
  /-- `DT`, the delay timer (R33). -/
  DT       : TimerValue
  /-- `stack[0]` .. `stack[15]`, the return-address slots (R29). -/
  stack    : Vector CodeAddr Config.stackDepth
  /-- `SP`, the number of occupied slots, 0 .. 16 (R29). -/
  SP       : Fin (Config.stackDepth + 1)
  /-- `fb`: 2048 one-byte cells, row-major (R38). -/
  fb       : Memory
  /-- `last_tick`, the instant of the last decrement of DT, in milliseconds (R34). -/
  lastTick : Nat
  /-- `phase` (R35). -/
  phase    : Phase
  /-- `fault` (R36). -/
  fault    : Option FatalRecord
  /-- The warning the last interaction emitted, its `diag` output (R48). -/
  diag     : Option Warning
  /-- The input `now` as the latest step sampled it (R47). The model's own field (log 1). -/
  now      : Nat
  /-- The input `rnd` as the latest step sampled it (R47). The model's own field (log 1). -/
  rnd      : Byte
  /-- The inputs the host has already chosen for the coming steps, oldest first; where it is empty, a step draws free
  values. The model's own field (log 1). -/
  schedule : List StepInput
  /-- The counter the free values are applied to, advanced by every step. The model's own field (log 1). -/
  draws    : Nat
  /-- An image has been loaded since reset: at most one may be (R188, D17). The model's own field (log 9). -/
  loaded   : Bool
  deriving DecidableEq, Repr

/-- Every piece of state at its reset value (R42, R185); the model's own fields at the values of log 8. -/
def State.reset : State where
  mem      := []
  V        := Vector.replicate Config.numRegs 0
  I        := 0
  PC       := BitVec.ofNat Config.pcWidth Config.loadOffset
  DT       := 0
  stack    := Vector.replicate Config.stackDepth 0
  SP       := 0
  fb       := []
  lastTick := 0
  phase    := .ready
  fault    := none
  diag     := none
  now      := 0
  rnd      := 0
  schedule := []
  draws    := 0
  loaded   := false

/-- Why the machine has no transition. A FATAL FAULT OF A PROGRAM IS NOT ONE OF THESE: it is a next state, Halted, with
the fault record written (R160; log 5). -/
inductive Fault where
  /-- Raised by a step request while Halted, with the record of the fatal fault that halted the block: no transition,
  nothing changes, only reset leaves Halted (R98, D16; U14 calls it stuck). Safe: the run goes no further. -/
  | stepWhileHalted (record : Option FatalRecord)
  deriving DecidableEq, Repr

/-- What the model gives no meaning to. -/
inductive Refusal where
  /-- Raised by an arm of exec whose instruction has no meaning yet. No arm raises it. Safe: nothing runs. -/
  | notModelled (mnemonic : String)
  /-- Raised by a load request while Running or Halted: refused, no transition (R46, U14). Safe: nothing runs. -/
  | loadNotReady
  /-- Raised by a second load request since reset: outside the model, refused (R188, D17; log 9). Safe: nothing runs. -/
  | loadTwice
  deriving DecidableEq, Repr

/-- The outcome of a meaning, of a step, of a request. -/
abbrev Result := Host.Outcome State Fault Refusal

end Sys2Proof.Machine
end

