-- ==== Sys2Proof/Machine/Memory.lean ====
section
/-! DEFINITION. The store of bytes: its canonical form, its read and its write, and the framebuffer's addressing
(20_memory.md R50 to R69). -/

namespace Sys2Proof.Machine

/-- What an address with no entry reads as: reset leaves every byte of memory and every framebuffer cell 0 (R42). -/
def Memory.unlisted : Byte := 0

/-- Addresses from `lo` on, strictly rising and below `size`, and no entry equal to what an unlisted address reads as. -/
def Memory.wfFrom (size : Nat) : Nat → Memory → Bool
  | _, [] => true
  | lo, (a, b) :: rest => decide (lo ≤ a) && decide (a < size) && b != Memory.unlisted && Memory.wfFrom size (a + 1) rest

/-- The canonical form of a store of `size` bytes: equal stores are equal data. -/
def Memory.wf (size : Nat) (m : Memory) : Bool := Memory.wfFrom size 0 m

/-- The byte at an address: `mem[a]`, `fb[k]`. -/
def Memory.read : Memory → Nat → Byte
  | [], _ => Memory.unlisted
  | (a, b) :: rest, k => if k = a then b else Memory.read rest k

/-- The store without any entry of the address `k`. -/
def Memory.erase (m : Memory) (k : Nat) : Memory := m.filter fun c => c.1 != k

/-- An entry put in its place, before the first larger address. -/
def Memory.insert : Memory → Nat → Byte → Memory
  | [], k, v => [(k, v)]
  | (a, b) :: rest, k, v => if k < a then (k, v) :: (a, b) :: rest else (a, b) :: Memory.insert rest k v

/-- One byte written; it is listed only where it differs from what an unlisted address reads as, so that the canonical
form is kept. -/
def Memory.write (m : Memory) (k : Nat) (v : Byte) : Memory :=
  if v = Memory.unlisted then m.erase k else (m.erase k).insert k v

/-- A list of bytes written from an address upward (R68). -/
def Memory.writeBytes : Memory → Nat → List Byte → Memory
  | m, _, [] => m
  | m, a, b :: rest => Memory.writeBytes (Memory.write m a b) (a + 1) rest

/-- The canonical store that holds `f a`, `f (a + 1)`, … in the `n` cells from `a` on. -/
def Memory.tabulate (f : Nat → Byte) : Nat → Nat → Memory
  | 0, _ => []
  | n + 1, a =>
    if f a = Memory.unlisted then Memory.tabulate f n (a + 1) else (a, f a) :: Memory.tabulate f n (a + 1)

/-- A clear framebuffer: every cell 0x00 (R105). -/
def Memory.clearScreen : Memory := []

/-- The index of the cell of column `c` and row `r`: `r * 64 + c` (R66). -/
def cellIndex (c r : Nat) : Nat := r * Config.fbWidth + c

/-- `MemRead(addr, 1)` (R52): the byte of an address in bounds; none where the caller raises its fatal fault. -/
def memRead (m : Memory) (addr : Nat) : Option Byte :=
  if addr < Config.memSize then some (m.read addr) else none

end Sys2Proof.Machine
end

