-- ==== Sys2Proof/Machine/Ops.lean ====
section
/-! DEFINITION. The named operations over the state: registers, PC, stack, timer, fetch, the fatal fault, the load. -/

namespace Sys2Proof.Machine

/-- `V[15]`, the flag register (R22). -/
abbrev VF : Reg := 15

/-- `V[x]` (R14, R21), as a byte: `REG_WIDTH` is 8, so a register's value is one. -/
def State.readV (s : State) (x : Reg) : Byte := s.V[x.toNat]'x.isLt

/-- `V[x] <- v` (R14). -/
def State.writeV (s : State) (x : Reg) (v : Byte) : State := { s with V := s.V.set x.toNat v x.isLt }

/-- `I <- v` (R28). -/
def State.setI (s : State) (v : IndexValue) : State := { s with I := v }

/-- `DT <- v` (R33). -/
def State.setDT (s : State) (v : TimerValue) : State := { s with DT := v }

/-- The framebuffer replaced (R39). -/
def State.setFb (s : State) (fb : Memory) : State := { s with fb := fb }

/-- A warning for the diagnostics sink (R166). -/
def State.warn (s : State) (w : Warning) : State := { s with diag := some w }

/-- Next PC (R94): an explicit target is used as is; none means default advancement, PC + 2 modulo 2^16. -/
def State.nextPC (s : State) (target : Option CodeAddr) : State :=
  { s with PC := match target with
      | some t => t
      | none => s.PC + BitVec.ofNat Config.pcWidth Config.instrBytes }

/-- `stack[SP] <- v; SP <- SP + 1`, where SP < `STACK_DEPTH` (R30). -/
def State.pushAt (s : State) (v : CodeAddr) (h : s.SP.val < Config.stackDepth) : State :=
  { s with stack := s.stack.set s.SP.val v h, SP := ⟨s.SP.val + 1, Nat.succ_lt_succ h⟩ }

/-- `Push(v)` (R30); none where the stack is full and the caller raises StackOverflow. -/
def State.push (s : State) (v : CodeAddr) : Option State :=
  if h : s.SP.val < Config.stackDepth then some (s.pushAt v h) else none

/-- The top slot `stack[SP - 1]` (R29); asked for only where SP is not 0. -/
def State.top (s : State) : CodeAddr :=
  s.stack[s.SP.val - 1]'(Nat.lt_of_le_of_lt (Nat.sub_le_sub_right (Nat.le_of_lt_succ s.SP.isLt) 1) (by decide))

/-- `SP <- SP - 1`; the slot keeps its value (R30, R106; log 13). -/
def State.dropTop (s : State) : State := { s with SP := ⟨s.SP.val - 1, by have := s.SP.isLt; omega⟩ }

/-- `Pop()` (R30): the popped value and the state after; none where the stack is empty and the caller raises
StackUnderflow. -/
def State.pop (s : State) : Option (CodeAddr × State) :=
  if s.SP.val = 0 then none else some (s.top, s.dropTop)

/-- TAKING A FATAL FAULT (R160, R36, R104, R172), with PC still the address of the faulting instruction: the record
(kind, pc, instr) is written, `phase` becomes Halted, `mem` is unchanged, no warning is emitted (R171), and every
other value is not specified: free values of Config, on which no claim may rest (log 4). There is no handler, no
vector and no return (R172, R173). -/
def State.raiseFatal (s : State) (kind : FatalKind) (instr : Word) : State :=
  { s with
    V        := Vector.ofFn fun r => Config.haltedV s.draws r.val
    I        := Config.haltedI s.draws
    PC       := Config.haltedPC s.draws
    DT       := Config.haltedDT s.draws
    stack    := Vector.ofFn fun k => Config.haltedStack s.draws k.val
    SP       := Config.haltedSP s.draws
    fb       := Memory.tabulate (Config.haltedFb s.draws) Config.fbCells 0
    lastTick := Config.haltedLastTick s.draws
    phase    := .halted
    fault    := some ⟨kind, s.PC, instr⟩
    diag     := none }

/-- The code of a fatal fault kind (R161). -/
def FatalKind.code : FatalKind → BitVec 3
  | .stackOverflow => 1
  | .stackUnderflow => 2
  | .fetchOutOfBounds => 3
  | .spriteReadOutOfBounds => 4

/-- The code of a warning (R166, R167). -/
def Warning.code : Warning → Nat
  | .unknownInstruction _ _ => 1
  | .loadTruncated _ => 2

/-- Milliseconds since the last decrement, 0 for a clock that ran backwards (R91, D19). -/
def State.elapsed (s : State) : Nat := if s.lastTick ≤ s.now then s.now - s.lastTick else 0

/-- The delay-timer tick (R91): at most one decrement, when DT is not 0 and the period has elapsed. -/
def State.tick (s : State) : State :=
  if s.DT ≠ 0 ∧ Config.timerPeriod ≤ s.elapsed then { s with DT := s.DT - 1, lastTick := s.now } else s

/-- The inputs of the next step request (R47): the host's choice where it has made one, else a clock that moved by a
free amount and a free random byte (R142, R195; log 1, 2, 3). -/
def State.nextInput (s : State) : StepInput :=
  match s.schedule with
  | inp :: _ => inp
  | [] => ⟨s.now + Config.clockAdvance s.draws, Config.randomByte s.draws⟩

/-- The schedule without the inputs the next step takes. -/
def State.popSchedule (s : State) : State := { s with schedule := s.schedule.tail }

/-- The start of a step: its inputs are sampled once (R47), no warning is emitted yet, and the block is Running unless
a fatal fault halts it (R97, R99; log 7). -/
def State.sample (s : State) (inp : StepInput) : State :=
  { s with now := inp.now, rnd := inp.rnd, diag := none, phase := .running, draws := s.draws + 1 }

/-- Fetch (R92, R53): the two bytes at PC, most significant first; none where PC + 1 is past memory. -/
def State.fetch (s : State) : Option Word :=
  match memRead s.mem s.PC.toNat, memRead s.mem (s.PC.toNat + 1) with
  | some hi, some lo => some (wordOfBytes hi lo)
  | _, _ => none

/-- What the load operation emits (R69): a warning with the image's length when bytes were dropped. -/
def loadWarning (image : List Byte) : Option Warning :=
  if Config.maxImage < image.length then some (.loadTruncated image.length) else none

/-- The load operation (R68, R69): the first `MAX_IMAGE` bytes of the image copied from `LOAD_OFFSET` on. -/
def State.loadImage (s : State) (image : List Byte) : State :=
  { s with
    mem    := s.mem.writeBytes Config.loadOffset (image.take Config.maxImage)
    diag   := loadWarning image
    loaded := true }

/-- The reset input (R45): every piece of state at its reset value; the host's choice of inputs and the counter of the
free values stand, so that values drawn after a reset are fresh (log 8). -/
def State.resetInput (s : State) : State := { State.reset with schedule := s.schedule, draws := s.draws }

end Sys2Proof.Machine
end

