-- ==== Sys2Proof/Machine/Flags.lean ====
section
/-! DEFINITION. The flag computations: what VF gets from the operands `a` = V[x] and `b` = V[y] (44_alu_8xy.md R131 to
R135; 46_draw.md R149), and the order of the flag write and the result write (R126). -/

namespace Sys2Proof.Machine

/-- A flag as the byte VF holds. -/
def flagByte (c : Bool) : Byte := if c then 1 else 0

/-- Carry of 8xy4: the exact sum is above 0xFF (R131). -/
def carryFlag (a b : Byte) : Byte := flagByte (decide (0xFF < a.toNat + b.toNat))

/-- Flag of 8xy5 with (a, b) and of 8xy7 with (b, a): strictly greater, unsigned (R132, R134). -/
def greaterFlag (a b : Byte) : Byte := flagByte (decide (b.toNat < a.toNat))

/-- The bit 8xy6 shifts out: bit 0 (R133). -/
def lowBitFlag (a : Byte) : Byte := flagByte (a.getLsbD 0)

/-- The bit 8xyE shifts out: bit 7 (R135). -/
def highBitFlag (a : Byte) : Byte := flagByte (a.getLsbD 7)

/-- Collision of Dxyn (R149). -/
def collisionFlag (hit : Bool) : Byte := flagByte hit

/-- The flag to VF first, the result to V[x] second: with x = 15 the flag value is lost (R126). -/
def State.writeFlagged (s : State) (x : Reg) (flag result : Byte) : State := (s.writeV VF flag).writeV x result

end Sys2Proof.Machine
end

