-- ==== Sys2Proof/Machine/Alu.lean ====
section
/-! DEFINITION. Register-register operations: family 8 (44_alu_8xy.md). Every operand is read from the state the
instruction begins in (R125, R15). -/

namespace Sys2Proof.Machine

/-- LD Vx, Vy (R127). -/
def execLdReg (x y : Reg) (s : State) : Result := .next ((s.writeV x (s.readV y)).nextPC none)

/-- OR Vx, Vy (R128). -/
def execOrReg (x y : Reg) (s : State) : Result := .next ((s.writeV x (s.readV x ||| s.readV y)).nextPC none)

/-- AND Vx, Vy (R129). -/
def execAndReg (x y : Reg) (s : State) : Result := .next ((s.writeV x (s.readV x &&& s.readV y)).nextPC none)

/-- XOR Vx, Vy (R130). -/
def execXorReg (x y : Reg) (s : State) : Result := .next ((s.writeV x (s.readV x ^^^ s.readV y)).nextPC none)

/-- ADD Vx, Vy (R131). -/
def execAddReg (x y : Reg) (s : State) : Result :=
  .next ((s.writeFlagged x (carryFlag (s.readV x) (s.readV y)) (s.readV x + s.readV y)).nextPC none)

/-- SUB Vx, Vy (R132). -/
def execSub (x y : Reg) (s : State) : Result :=
  .next ((s.writeFlagged x (greaterFlag (s.readV x) (s.readV y)) (s.readV x - s.readV y)).nextPC none)

/-- SHR Vx (R133); `y` is ignored (R75). -/
def execShr (x _y : Reg) (s : State) : Result :=
  .next ((s.writeFlagged x (lowBitFlag (s.readV x)) (s.readV x >>> 1)).nextPC none)

/-- SUBN Vx, Vy (R134). -/
def execSubn (x y : Reg) (s : State) : Result :=
  .next ((s.writeFlagged x (greaterFlag (s.readV y) (s.readV x)) (s.readV y - s.readV x)).nextPC none)

/-- SHL Vx (R135); `y` is ignored (R75). -/
def execShl (x _y : Reg) (s : State) : Result :=
  .next ((s.writeFlagged x (highBitFlag (s.readV x)) (s.readV x <<< 1)).nextPC none)

end Sys2Proof.Machine
end

