-- ==== Sys2Proof/Machine/Operands.lean ====
section
/-! DEFINITION. The operand forms (30_encoding.md R73, R74): zero-extended addresses, and the sprite's coordinates and
row addresses (46_draw.md R146, R147). -/

namespace Sys2Proof.Machine

/-- `zext_16(nnn)` (R73): an absolute target or a value of I. -/
def zextAddr (nnn : Addr) : Word := nnn.setWidth 16

/-- The address of the next instruction, pushed by CALL: (PC + 2) mod 65536 (R111). -/
def State.returnAddress (s : State) : CodeAddr := s.PC + BitVec.ofNat Config.pcWidth Config.instrBytes

/-- The target of a taken skip: (PC + 4) mod 65536 (R112, R113). -/
def State.skipTarget (s : State) : CodeAddr := s.PC + 4

/-- The address of sprite row `i`: I + i, exact (R146, R51). -/
def State.rowAddress (s : State) (i : Nat) : Nat := s.I.toNat + i

/-- Some row address of an `n`-row sprite is past memory (R146, R161): n is at least 1 and I + n - 1 is at least 4096. -/
def State.spriteOutOfBounds (s : State) (n : Nat) : Bool :=
  decide (1 ≤ n) && decide (Config.memSize ≤ s.rowAddress (n - 1))

/-- The column of bit `j` of a sprite row: (cx + (7 - j)) mod 64, the sum exact (R147). -/
def pixelColumn (cx : Byte) (j : Nat) : Nat := (cx.toNat + (7 - j)) % Config.fbWidth

/-- The row of sprite row `i`: (cy + i) mod 32, the sum exact (R147). -/
def pixelRow (cy : Byte) (i : Nat) : Nat := (cy.toNat + i) % Config.fbHeight

/-- The cell of sprite row `i` and bit `j`: always below 2048 (R66). -/
def pixelCell (cx cy : Byte) (i j : Nat) : Nat := cellIndex (pixelColumn cx j) (pixelRow cy i)

end Sys2Proof.Machine
end

