-- ==== Sys2Proof/Machine/Control.lean ====
section
/-! DEFINITION. Jump, call and skip: families 1 to 4 (42_jump_call_skip.md). -/

namespace Sys2Proof.Machine

/-- JP nnn (R110). -/
def execJp (nnn : Addr) (s : State) : Result := .next (s.nextPC (some (zextAddr nnn)))

/-- CALL nnn (R111): push the address of the next instruction; StackOverflow on a full stack (R162). -/
def execCall (nnn : Addr) (s : State) : Result :=
  match s.push s.returnAddress with
  | some s' => .next (s'.nextPC (some (zextAddr nnn)))
  | none => .next (s.raiseFatal .stackOverflow (encode (.call nnn)))

/-- A skip (R112, R113): PC + 4 when the condition holds, else default advancement. -/
def skipWhen (c : Bool) (s : State) : Result := .next (s.nextPC (if c then some s.skipTarget else none))

/-- SE Vx, kk (R112). -/
def execSe (x : Reg) (kk : Byte) (s : State) : Result := skipWhen (s.readV x == kk) s

/-- SNE Vx, kk (R113). -/
def execSne (x : Reg) (kk : Byte) (s : State) : Result := skipWhen (s.readV x != kk) s

end Sys2Proof.Machine
end

