-- ==== Sys2Proof/Machine/Draw.lean ====
section
/-! DEFINITION. Draw sprite: family D (46_draw.md). A canvas is the framebuffer drawn so far with whether a cell has
gone from on to off. -/

namespace Sys2Proof.Machine

/-- The all-on mask, and the byte of a cell that is on (R148, R38). -/
def onByte : Byte := 0xFF

/-- One pixel, whose sprite bit is `bit` (R148, R149): the cell XORed with the mask where the bit is 1. -/
def drawPixel (canvas : Memory × Bool) (cell : Nat) (bit : Bool) : Memory × Bool :=
  if bit then (canvas.1.write cell (canvas.1.read cell ^^^ onByte), canvas.2 || canvas.1.read cell == onByte)
  else canvas

/-- Sprite row `i`, its bits from 7 down to 0 (R145). -/
def drawRow (cx cy : Byte) (canvas : Memory × Bool) (i : Nat) (row : Byte) : Memory × Bool :=
  [7, 6, 5, 4, 3, 2, 1, 0].foldl (fun c j => drawPixel c (pixelCell cx cy i j) (row.getLsbD j)) canvas

/-- Sprite rows `i`, `i + 1`, …, the `k` of them, each read from memory at I + its number (R145, R146). -/
def drawRows (s : State) (cx cy : Byte) : Nat → Nat → Memory × Bool → Memory × Bool
  | 0, _, canvas => canvas
  | k + 1, i, canvas => drawRows s cx cy k (i + 1) (drawRow cx cy canvas i (s.mem.read (s.rowAddress i)))

/-- The whole sprite of `n` rows at (V[x], V[y]), both read before VF is reset (R145, R151). -/
def drawSprite (s : State) (x y : Reg) (n : Nat) : Memory × Bool :=
  drawRows s (s.readV x) (s.readV y) n 0 (s.fb, false)

/-- DRW Vx, Vy, n (R145): the bounds of all rows are checked before anything changes (R146). -/
def execDrw (x y : Reg) (n : Nibble) (s : State) : Result :=
  if s.spriteOutOfBounds n.toNat then .next (s.raiseFatal .spriteReadOutOfBounds (encode (.drw x y n)))
  else
    .next (((s.setFb (drawSprite s x y n.toNat).1).writeV VF (collisionFlag (drawSprite s x y n.toNat).2)).nextPC none)

end Sys2Proof.Machine
end

