-- ==== Sys2Proof/Machine/Family0.lean ====
section
/-! DEFINITION. Family 0 (41_family0.md). -/

namespace Sys2Proof.Machine

/-- CLS (R105): every framebuffer cell 0x00. -/
def execCls (s : State) : Result := .next ((s.setFb Memory.clearScreen).nextPC none)

/-- RET (R106): pop into PC, with no further advance; StackUnderflow on an empty stack (R163). -/
def execRet (s : State) : Result :=
  match s.pop with
  | some (target, s') => .next (s'.nextPC (some target))
  | none => .next (s.raiseFatal .stackUnderflow (encode .ret))

end Sys2Proof.Machine
end

