-- ==== Sys2Proof/Machine/Immediate.lean ====
section
/-! DEFINITION. Load and add immediate: families 6 and 7 (43_load_add_immediate.md). -/

namespace Sys2Proof.Machine

/-- LD Vx, kk (R120). -/
def execLdImm (x : Reg) (kk : Byte) (s : State) : Result := .next ((s.writeV x kk).nextPC none)

/-- ADD Vx, kk (R121): modulo 256, and no flag. -/
def execAddImm (x : Reg) (kk : Byte) (s : State) : Result := .next ((s.writeV x (s.readV x + kk)).nextPC none)

end Sys2Proof.Machine
end

