-- ==== Sys2Proof/Machine/IndexRandom.lean ====
section
/-! DEFINITION. Load index and random: families A and C (45_index_random.md). -/

namespace Sys2Proof.Machine

/-- LD I, nnn (R140): not checked against the memory size here. -/
def execLdI (nnn : Addr) (s : State) : Result := .next ((s.setI (zextAddr nnn)).nextPC none)

/-- RND Vx, kk (R141): the step's random input, masked. -/
def execRnd (x : Reg) (kk : Byte) (s : State) : Result := .next ((s.writeV x (s.rnd &&& kk)).nextPC none)

end Sys2Proof.Machine
end

