-- ==== Sys2Proof/Machine/Timer.lean ====
section
/-! DEFINITION. Delay-timer transfer: family F (47_timer.md). The tick itself is State.tick, run before the fetch. -/

namespace Sys2Proof.Machine

/-- LD Vx, DT (R155): DT as this step's tick left it. -/
def execLdVxDT (x : Reg) (s : State) : Result := .next ((s.writeV x s.DT).nextPC none)

/-- LD DT, Vx (R156): `last_tick` is not written. -/
def execLdDTVx (x : Reg) (s : State) : Result := .next ((s.setDT (s.readV x)).nextPC none)

end Sys2Proof.Machine
end

