-- ==== Sys2Proof/Machine/Unknown.lean ====
section
/-! DEFINITION. The unknown instruction (40_step.md R96). -/

namespace Sys2Proof.Machine

/-- UNKNOWN (R96): a warning with the word and its address, default advancement, and no other change. -/
def execUnknown (w : Word) (s : State) : Result := .next ((s.warn (.unknownInstruction w s.PC)).nextPC none)

end Sys2Proof.Machine
end

