-- ==== Sys2Proof/Machine/Cycle.lean ====
section
/-! DEFINITION. The interactions of the host with the block (10_state.md R44 to R49) over the shared operations: a step
with given inputs (40_step.md R100), a load, a reset, and what the host reads back. -/

namespace Sys2Proof.Machine

/-- Fetch, dispatch and execute, after the tick (R92, R93): FetchOutOfBounds where no word can be fetched (R164), else
the meaning of the decoded word. -/
def runFetched (s : State) : Result :=
  match s.fetch with
  | none => .next (s.raiseFatal .fetchOutOfBounds 0)
  | some w => exec (decode w) s

/-- `step(now, rnd)` (R100): no transition while Halted (R98); else the inputs are sampled, the timer ticks (R91), and
the instruction at PC runs. -/
def stepRequest (inp : StepInput) (s : State) : Result :=
  match s.phase with
  | .halted => .fault (.stepWhileHalted s.fault)
  | .ready => runFetched (s.sample inp).tick
  | .running => runFetched (s.sample inp).tick

/-- `load(image)` (R46): accepted only while Ready, and once (R188, D17). -/
def loadRequest (image : List Byte) (s : State) : Result :=
  match s.phase, s.loaded with
  | .ready, false => .next (s.loadImage image)
  | .ready, true => .refused .loadTwice
  | .running, _ => .refused .loadNotReady
  | .halted, _ => .refused .loadNotReady

/-- One interaction of the host (R44): reset is accepted at any time (R45). -/
def serve : Request → State → Result
  | .reset, s => .next s.resetInput
  | .load image, s => loadRequest image s
  | .step inp, s => stepRequest inp s

/-- A step whose inputs come from the state: the host's choice, or free values (R41, R47; log 1). -/
def stepFromState (s : State) : Result := stepRequest s.nextInput s.popSchedule

/-- The result a step hands to the host (R48), read from the state it ends in. -/
def stepResult (t : State) : StepResult :=
  match t.fault with
  | some r => .fatal r
  | none => .done t.diag

/-- The fault record as the host reads it: kind, pc, instr, each 0 where there is no fault (R36, R42, R49). -/
def faultOutput (s : State) : BitVec 3 × CodeAddr × Word :=
  match s.fault with
  | some r => (r.kind.code, r.pc, r.instr)
  | none => (0, 0, 0)

/-- The framebuffer output (R49, R38): the cell of column `c` and row `r`. -/
def screenOutput (s : State) (c r : Nat) : Byte := s.fb.read (cellIndex c r)

/-- A word placed at PC, most significant byte first, where both its bytes are in memory (R53). -/
def placeWord (s : State) (w : Word) : State :=
  if s.PC.toNat + 1 < Config.memSize then { s with mem := s.mem.writeBytes s.PC.toNat (bytesOfWord w) } else s

end Sys2Proof.Machine
end

