-- ==== Sys2Proof/Machine/Step.lean ====
section
/-! DEFINITION. The step function the host runs, and the placing of a word where it fetches next. -/

namespace Sys2Proof.Machine

/-- One step (40_step.md R90, R100). -/
def step (s : State) : Host.Outcome State Fault Refusal := stepFromState s

/-- The state with a table row's word stored at PC, where the next step fetches (log 11). -/
def State.withFetchWord (s : State) (nbits w : Nat) : State := placeWord s (tableWord nbits w)

end Sys2Proof.Machine
end

