-- ==== Sys2Proof/Safety.lean ====
section
/-! DEFINITION. The terms claims are stated in: what a safe run keeps (the invariant), what a step begins from and what
it fetches, which steps the spec says are fatal, and the frames: which parts of the state two states share. -/

namespace Sys2Proof.Machine

/-- The word at PC: `mem[PC] * 256 + mem[PC + 1]` (R92, R53). -/
def State.wordAtPC (s : State) : Word := wordOfBytes (s.mem.read s.PC.toNat) (s.mem.read (s.PC.toNat + 1))

/-- Both bytes of the word at PC are in memory (R92). -/
def State.CanFetch (s : State) : Prop := s.PC.toNat + 1 < Config.memSize

/-- The state in which the instruction of a step runs: inputs sampled, then the tick (R100, R47, R91). -/
def State.begun (s : State) : State := (s.popSchedule.sample s.nextInput).tick

/-- A decrement of DT is due at the clock reading `now` (R91). -/
def State.TickDue (s : State) (now : Nat) : Prop := s.DT ≠ 0 ∧ s.lastTick + Config.timerPeriod ≤ now

/-- The step ended without a fatal fault (R97). -/
def State.Completed (t : State) : Prop := t.phase = .running

/-- A run goes on safely from `s`: the next step completes. -/
def State.StepsSafely (s : State) : Prop := ∃ t, step s = .next t ∧ t.Completed

/-- What holds of a block that has not halted: PC and pushed addresses stay in the range of R26, I in that of R28, and
every framebuffer cell is 0x00 or 0xFF (R38). -/
structure State.Live (s : State) : Prop where
  pcBound    : s.PC.toNat ≤ 4098
  indexBound : s.I.toNat ≤ 0x0FFF
  stackBound : ∀ k (h : k < 16), k < s.SP.val → (s.stack[k]'h).toNat ≤ 4096
  cellsOnOff : ∀ k, s.fb.read k = 0x00 ∨ s.fb.read k = 0xFF

/-- The invariant every step keeps: the stores are canonical and within their sizes, a fault is recorded exactly while
Halted (R36), and a block that has not halted is live. Of a halted block nothing more is said (R104). -/
structure State.Inv (s : State) : Prop where
  memWf          : s.mem.wf Config.memSize = true
  fbWf           : s.fb.wf Config.fbCells = true
  haltedIffFault : s.phase = .halted ↔ s.fault ≠ none
  liveUnlessHalted : s.phase ≠ .halted → s.Live

/-- The host's chosen clock readings never decrease, from `now` on (R47). -/
def ReadingsAscend : Nat → List StepInput → Prop
  | _, [] => True
  | now, inp :: rest => now ≤ inp.now ∧ ReadingsAscend inp.now rest

/-- The host keeps its obligation on the clock, and the last decrement is not in the future (R34, R47). -/
def State.ClockInv (s : State) : Prop := s.lastTick ≤ s.now ∧ ReadingsAscend s.now s.schedule

/-- The fatal fault the next step raises, by the table of R161, in the order of R171. -/
def State.fatalAhead (s : State) : Option FatalRecord :=
  if Config.memSize ≤ s.PC.toNat + 1 then some ⟨.fetchOutOfBounds, s.PC, 0⟩
  else match decode s.wordAtPC with
    | .call _ => if s.SP.val = 16 then some ⟨.stackOverflow, s.PC, s.wordAtPC⟩ else none
    | .ret => if s.SP.val = 0 then some ⟨.stackUnderflow, s.PC, 0x00EE⟩ else none
    | .drw _ _ n =>
      if 1 ≤ n.toNat ∧ Config.memSize ≤ s.I.toNat + n.toNat - 1 then some ⟨.spriteReadOutOfBounds, s.PC, s.wordAtPC⟩
      else none
    | _ => none

/-- The PC after the instruction, by the table of R24. -/
def State.pcAfter (s : State) : Instr → Word
  | .ret => s.top
  | .jp nnn => nnn.setWidth 16
  | .call nnn => nnn.setWidth 16
  | .se x kk => if s.readV x = kk then s.PC + 4 else s.PC + 2
  | .sne x kk => if s.readV x = kk then s.PC + 2 else s.PC + 4
  | _ => s.PC + 2

/-- The general register an instruction names as its destination (R21, R74). -/
def destReg : Instr → Option Reg
  | .ldImm x _ | .addImm x _ | .rnd x _ => some x
  | .ldReg x _ | .orReg x _ | .andReg x _ | .xorReg x _ => some x
  | .addReg x _ | .sub x _ | .shr x _ | .subn x _ | .shl x _ => some x
  | .ldVxDT x => some x
  | _ => none

/-- The instructions whose rules write VF as a flag (R22, R27). -/
def writesFlag : Instr → Bool
  | .addReg _ _ | .sub _ _ | .shr _ _ | .subn _ _ | .shl _ _ | .drw _ _ _ => true
  | _ => false

/-- The number of the opcode-map row whose instruction this is, in the order of R81; none for an unknown word. -/
def rowNumber : Instr → Option Nat
  | .cls => some 0
  | .ret => some 1
  | .jp _ => some 2
  | .call _ => some 3
  | .se _ _ => some 4
  | .sne _ _ => some 5
  | .ldImm _ _ => some 6
  | .addImm _ _ => some 7
  | .ldReg _ _ => some 8
  | .orReg _ _ => some 9
  | .andReg _ _ => some 10
  | .xorReg _ _ => some 11
  | .addReg _ _ => some 12
  | .sub _ _ => some 13
  | .shr _ _ => some 14
  | .subn _ _ => some 15
  | .shl _ _ => some 16
  | .ldI _ => some 17
  | .rnd _ _ => some 18
  | .drw _ _ _ => some 19
  | .ldVxDT _ => some 20
  | .ldDTVx _ => some 21
  | .unknown _ => none

/-- The n-row sprite at (V[x], V[y]) has a set bit whose target is the cell of column `c` and row `r` (R147). -/
def SpriteCovers (s : State) (x y : Reg) (n : Nibble) (c r : Nat) : Prop :=
  ∃ i j, i < n.toNat ∧ j < 8 ∧ (s.mem.read (s.I.toNat + i)).getLsbD j = true ∧
    c = ((s.readV x).toNat + (7 - j)) % 64 ∧ r = ((s.readV y).toNat + i) % 32

/-- Every row address of an n-row sprite is in memory (R146). -/
def SpriteInMemory (s : State) (n : Nibble) : Prop := ∀ i, i < n.toNat → s.I.toNat + i < 4096

/-- The general registers outside `regs` are the same. -/
def SameV (regs : List Reg) (s t : State) : Prop := ∀ r, r ∉ regs → t.readV r = s.readV r

/-- Every byte of memory reads the same. -/
def SameMem (s t : State) : Prop := ∀ a, t.mem.read a = s.mem.read a

/-- Every framebuffer cell reads the same. -/
def SameScreen (s t : State) : Prop := ∀ k, t.fb.read k = s.fb.read k

/-- The occupied stack slots, those below SP, hold the same; of the slots at SP and above no claim speaks (R31). -/
def SameSlotsBelow (d : Nat) (s t : State) : Prop := ∀ k (h : k < 16), k < d → t.stack[k]'h = s.stack[k]'h

/-- The depth of the stack and its occupied slots are the same. -/
def SameStack (s t : State) : Prop := t.SP = s.SP ∧ SameSlotsBelow s.SP.val s t

/-- The delay timer and its instant are the same. -/
def SameTimer (s t : State) : Prop := t.DT = s.DT ∧ t.lastTick = s.lastTick

/-- The block's status is the same. -/
def SameStatus (s t : State) : Prop := t.phase = s.phase ∧ t.fault = s.fault

/-- The model's own fields that hold the inputs of steps and the load's mark are the same. -/
def SameInputs (s t : State) : Prop :=
  t.now = s.now ∧ t.rnd = s.rnd ∧ t.schedule = s.schedule ∧ t.draws = s.draws ∧ t.loaded = s.loaded

/-- The frame of an instruction that changes at most the general registers `regs` and PC (R16). -/
structure OnlyRegisters (regs : List Reg) (s t : State) : Prop where
  regsOther : SameV regs s t
  index     : t.I = s.I
  timer     : SameTimer s t
  stack     : SameStack s t
  screen    : SameScreen s t
  memory    : SameMem s t
  status    : SameStatus s t
  warning   : t.diag = s.diag
  inputs    : SameInputs s t

/-- Two states that differ at most in stack slots at SP and above (R31). -/
def SameButDeadSlots (s t : State) : Prop :=
  (∀ k (h : k < 16), k < s.SP.val → s.stack[k]'h = t.stack[k]'h) ∧ { s with stack := t.stack } = t

end Sys2Proof.Machine
end

