-- ==== Sys2Proof/Certificates/Slice0/Obligations.lean ====
section
/-! DEFINITION. The statements for the provers. Each is about the machine, from the numbered rules of spec/. -/

open Sys2Proof Sys2Proof.Machine

/-! ### Reset and the host's requests -/

/-- R42, R185: what reset leaves, every byte of memory and every framebuffer cell read one by one. -/
def Obligations.ResetLeavesStatedValues : Prop :=
  (∀ a, State.reset.mem.read a = 0x00) ∧ (∀ r, State.reset.readV r = 0x00) ∧ State.reset.I = 0x0000 ∧
  State.reset.PC = 0x0200 ∧ State.reset.DT = 0x00 ∧ State.reset.SP.val = 0 ∧
  (∀ k (h : k < 16), State.reset.stack[k]'h = 0x0000) ∧ (∀ k, State.reset.fb.read k = 0x00) ∧
  State.reset.lastTick = 0 ∧ State.reset.phase = .ready ∧ State.reset.fault = none ∧
  faultOutput State.reset = (0, 0, 0) ∧ State.reset.diag = none

/-- The invariant and the clock's invariant hold at reset. -/
def Obligations.ResetMeetsInvariants : Prop := State.reset.Inv ∧ State.reset.ClockInv

/-- R45: reset is accepted in every phase, Halted included, and re-creates every piece of state of R42. That it keeps
the host's schedule and the counter of the free values is the model's choice (log 8). -/
def Obligations.ResetRequestRestoresResetState : Prop :=
  ∀ s : State, serve .reset s = .next { State.reset with schedule := s.schedule, draws := s.draws }

/-- R68: an image loaded into a Ready block that has none stands at 512 on, cut at 3584 bytes; every other byte and every
other piece of state is unchanged. That the block remembers the load is the model's own field (log 9). -/
def Obligations.LoadCopiesImagePrefix : Prop :=
  ∀ (image : List Byte) (s : State), s.phase = .ready → s.loaded = false →
    ∃ t, serve (.load image) s = .next t ∧
      (∀ k (h : k < image.length), k < 3584 → t.mem.read (512 + k) = image[k]) ∧
      (∀ a, a < 512 ∨ 512 + min image.length 3584 ≤ a → t.mem.read a = s.mem.read a) ∧
      t = { s with mem := t.mem, diag := t.diag, loaded := true }

/-- R69: the load operation warns exactly when the image is longer than 3584 bytes, with its length, and never faults. -/
def Obligations.LoadWarnsOnlyOnTruncation : Prop :=
  ∀ (image : List Byte) (s : State), s.phase = .ready → s.loaded = false →
    ∃ t, serve (.load image) s = .next t ∧
      (3584 < image.length → t.diag = some (.loadTruncated image.length)) ∧
      (image.length ≤ 3584 → t.diag = none)

/-- R46: a load while Running or Halted is refused. The refusal of a second load while Ready follows D17 (log 9). -/
def Obligations.LoadRefusedUnlessReady : Prop :=
  ∀ (image : List Byte) (s : State),
    (s.phase ≠ .ready → serve (.load image) s = .refused .loadNotReady) ∧
    (s.phase = .ready → s.loaded = true → serve (.load image) s = .refused .loadTwice)

/-- R98 (the spec's decision D16): while Halted a step request has no transition, and only reset leaves Halted. That no
transition is the outcome fault is the model's choice (log 5). -/
def Obligations.OnlyResetLeavesHalted : Prop :=
  ∀ s : State, s.phase = .halted →
    step s = .fault (.stepWhileHalted s.fault) ∧
    ∀ (req : Request) (t : State), serve req s = .next t → req = .reset

/-! ### The step -/

/-- R100, R92, R53: a step that can fetch is the meaning of the decoded word, run in the state that the sampling of the
inputs and the tick leave, and that word has the byte at PC as its most significant and the byte at PC + 1 as its least
significant one. -/
def Obligations.StepRunsDecodedInstruction : Prop :=
  ∀ s : State, s.phase ≠ .halted → s.CanFetch →
    step s = exec (decode s.wordAtPC) s.begun ∧
    s.wordAtPC.toNat = (s.mem.read s.PC.toNat).toNat * 256 + (s.mem.read (s.PC.toNat + 1)).toNat

/-- R91, R47, R99: what the instruction of a step begins from: the tick has run, at most one decrement, the inputs are
the step's, the block is Running, and nothing else has changed. -/
def Obligations.StepBeginsWithTick : Prop :=
  ∀ s : State,
    (s.TickDue s.nextInput.now → s.begun.DT = s.DT - 1 ∧ s.begun.lastTick = s.nextInput.now) ∧
    (¬ s.TickDue s.nextInput.now → s.begun.DT = s.DT ∧ s.begun.lastTick = s.lastTick) ∧
    s.begun = { s with
      DT := s.begun.DT, lastTick := s.begun.lastTick, phase := .running, diag := none, now := s.nextInput.now,
      rnd := s.nextInput.rnd, schedule := s.schedule.tail, draws := s.draws + 1 }

/-- R47: the inputs the host has chosen are taken oldest first, and the machine of the state steps as the request with
them does. The schedule is the model's field (log 1). -/
def Obligations.ScheduledInputsAreTheStepInputs : Prop :=
  ∀ (s : State) (inp : StepInput) (rest : List StepInput), s.schedule = inp :: rest →
    step s = serve (.step inp) { s with schedule := rest }

/-- R92, R164: a fetch with PC + 1 past memory is FetchOutOfBounds, recorded with PC and instr 0, and halts. The code 3
is the spec's decision D9; that a fatal fault is a next state, Halted, is R160 (D8) and log 5. -/
def Obligations.FetchBeyondMemoryHalts : Prop :=
  ∀ s : State, s.phase ≠ .halted → 4095 ≤ s.PC.toNat →
    ∃ t, step s = .next t ∧ t.phase = .halted ∧ t.fault = some ⟨.fetchOutOfBounds, s.PC, 0⟩ ∧
      faultOutput t = (3, s.PC, 0) ∧ t.diag = none ∧ SameMem s t

/-- R161, R160, R171, R48: a step of a block that has not halted always ends in a next state. It is fatal exactly in the
cases of the table of R161, with that record; otherwise it completes, and where no fault was recorded its result is Done
with its warning. R160 and R161 are the spec's decisions D8 and D9; that a
fatal fault is a next state is log 5. -/
def Obligations.StepHaltsExactlyOnListedFaults : Prop :=
  ∀ s : State, s.phase ≠ .halted → ∃ t, step s = .next t ∧
    (∀ r, s.fatalAhead = some r →
      t.phase = .halted ∧ t.fault = some r ∧ stepResult t = .fatal r ∧ t.diag = none ∧ SameMem s t) ∧
    (s.fatalAhead = none → t.Completed ∧ t.fault = s.fault ∧ (s.fault = none → stepResult t = .done t.diag))

/-- R96, R166: a step that completes warns exactly when its word is unknown, with the word and its address
(the spec's decisions D9 and D10). -/
def Obligations.StepWarnsExactlyOnUnknownWords : Prop :=
  ∀ s t : State, step s = .next t → t.Completed →
    (isUnknownWord s.wordAtPC = true → t.diag = some (.unknownInstruction s.wordAtPC s.PC)) ∧
    (isUnknownWord s.wordAtPC = false → t.diag = none)

/-- R24, R94, R95: the PC after every step that completes. -/
def Obligations.StepAdvancesPcByTable : Prop :=
  ∀ s t : State, step s = .next t → t.Completed → t.PC = s.pcAfter (decode s.wordAtPC)

/-- R56, R104: no step changes memory, a fatal one included. Of the host's requests only reset and a load while Ready
do. -/
def Obligations.NoStepWritesMemory : Prop :=
  (∀ s t : State, step s = .next t → SameMem s t) ∧
  (∀ (req : Request) (s t : State), serve req s = .next t →
    SameMem s t ∨ req = .reset ∨ ∃ image, req = .load image ∧ s.phase = .ready)

/-- R91, R33, R34: over a step that completes, DT moves only by the tick and by Fx15, and last_tick only by the tick. -/
def Obligations.TimerMovesOnlyByTickAndFx15 : Prop :=
  ∀ s t : State, step s = .next t → t.Completed →
    t.lastTick = s.begun.lastTick ∧
    (∀ x, decode s.wordAtPC = .ldDTVx x → t.DT = s.readV x) ∧
    ((∀ x, decode s.wordAtPC ≠ .ldDTVx x) → t.DT = s.begun.DT)

/-- R28: over a step that completes, I moves only by Annn, to nnn zero-extended. -/
def Obligations.IndexMovesOnlyByAnnn : Prop :=
  ∀ s t : State, step s = .next t → t.Completed →
    (∀ nnn, decode s.wordAtPC = .ldI nnn → t.I.toNat = nnn.toNat) ∧
    ((∀ nnn, decode s.wordAtPC ≠ .ldI nnn) → t.I = s.I)

/-- R39, R49, R38: over a step that completes, the framebuffer changes only by 00E0 and Dxyn. What the host reads at
column c and row r is the cell r * 64 + c, so its view changes only by these too. -/
def Obligations.ScreenChangesOnlyByClsAndDrw : Prop :=
  (∀ s t : State, step s = .next t → t.Completed → decode s.wordAtPC ≠ .cls →
    (∀ x y n, decode s.wordAtPC ≠ .drw x y n) →
    SameScreen s t ∧ ∀ c r, c < 64 → r < 32 → screenOutput t c r = screenOutput s c r) ∧
  (∀ (s : State) (c r : Nat), c < 64 → r < 32 → screenOutput s c r = s.fb.read (r * 64 + c))

/-- R32, R30: over a step that completes, the stack changes only by 2nnn, which adds one slot and keeps those below it,
and by 00EE, which removes one. -/
def Obligations.StackMovesOnlyByCallAndRet : Prop :=
  ∀ s t : State, step s = .next t → t.Completed →
    (∀ nnn, decode s.wordAtPC = .call nnn → t.SP.val = s.SP.val + 1 ∧
      (∀ (h : s.SP.val < 16), t.stack[s.SP.val]'h = s.PC + 2) ∧
      SameSlotsBelow s.SP.val s t) ∧
    (decode s.wordAtPC = .ret → t.SP.val + 1 = s.SP.val ∧ SameSlotsBelow t.SP.val s t) ∧
    (decode s.wordAtPC ≠ .ret → (∀ nnn, decode s.wordAtPC ≠ .call nnn) → SameStack s t)

/-- R16, R21, R27: over a step that completes, a general register changes only as the instruction's destination, or, for
VF, as the flag of the instructions that write one. -/
def Obligations.RegistersChangeOnlyAsNamed : Prop :=
  ∀ s t : State, step s = .next t → t.Completed → ∀ r,
    destReg (decode s.wordAtPC) ≠ some r → (r = VF → writesFlag (decode s.wordAtPC) = false) →
    t.readV r = s.readV r

/-- R101 (derived by the spec, with its decision D4): no instruction reads `now`, Cxkk included, and no instruction but
Cxkk reads `rnd`. Of an instruction that halts the block only phase and fault are compared. -/
def Obligations.InputsReadOnlyWhereStated : Prop :=
  (∀ (i : Instr) (s t : State) (now : Nat), exec i s = .next t →
    ∃ u, exec i { s with now := now } = .next u ∧ u.phase = t.phase ∧ u.fault = t.fault ∧
      (t.phase ≠ .halted → u = { t with now := now })) ∧
  (∀ (i : Instr) (s t : State) (now : Nat) (rnd : Byte), (∀ x kk, i ≠ .rnd x kk) → exec i s = .next t →
    ∃ u, exec i { s with now := now, rnd := rnd } = .next u ∧ u.phase = t.phase ∧ u.fault = t.fault ∧
      (t.phase ≠ .halted → u = { t with now := now, rnd := rnd }))

/-! ### The instructions: result, completion and frame -/

/-- R105. -/
def Obligations.ClsTurnsEveryCellOff : Prop :=
  ∀ s : State, ∃ t, exec .cls s = .next t ∧ (∀ k, t.fb.read k = 0x00) ∧ t.PC = s.PC + 2 ∧
    SameV [] s t ∧ t.I = s.I ∧ SameTimer s t ∧ SameStack s t ∧ SameMem s t ∧ SameStatus s t ∧ t.diag = s.diag ∧
    SameInputs s t

/-- R106: with a stack that is not empty, RET pops into PC. -/
def Obligations.RetPopsIntoPc : Prop :=
  ∀ s : State, s.SP.val ≠ 0 → ∃ t, exec .ret s = .next t ∧ t.SP.val = s.SP.val - 1 ∧
    (∀ (h : s.SP.val - 1 < 16), t.PC = s.stack[s.SP.val - 1]'h) ∧ SameSlotsBelow t.SP.val s t ∧
    SameV [] s t ∧ t.I = s.I ∧ SameTimer s t ∧ SameScreen s t ∧ SameMem s t ∧ SameStatus s t ∧ t.diag = s.diag ∧
    SameInputs s t

/-- R163, R106: with an empty stack, RET is StackUnderflow. The code 2 is the spec's decision D9, the halted next state
its decision D8 (log 5). -/
def Obligations.RetOnEmptyStackHalts : Prop :=
  ∀ s : State, s.SP.val = 0 → ∃ t, exec .ret s = .next t ∧ t.phase = .halted ∧
    t.fault = some ⟨.stackUnderflow, s.PC, 0x00EE⟩ ∧ faultOutput t = (2, s.PC, 0x00EE) ∧ SameMem s t

/-- R110. -/
def Obligations.JpSetsPcExactly : Prop :=
  ∀ (nnn : Addr) (s : State), ∃ t, exec (.jp nnn) s = .next t ∧ t.PC.toNat = nnn.toNat ∧ OnlyRegisters [] s t

/-- R111: with a stack that is not full, CALL pushes PC + 2 and jumps. -/
def Obligations.CallPushesReturnAddress : Prop :=
  ∀ (nnn : Addr) (s : State) (h : s.SP.val < 16), ∃ t, exec (.call nnn) s = .next t ∧ t.PC.toNat = nnn.toNat ∧
    t.SP.val = s.SP.val + 1 ∧ (t.stack[s.SP.val]'h).toNat = (s.PC.toNat + 2) % 65536 ∧
    SameSlotsBelow s.SP.val s t ∧
    SameV [] s t ∧ t.I = s.I ∧ SameTimer s t ∧ SameScreen s t ∧ SameMem s t ∧ SameStatus s t ∧ t.diag = s.diag ∧
    SameInputs s t

/-- R162, R111: with 16 return addresses on the stack, CALL is StackOverflow, recorded with its PC and word. The code 1 is
the spec's decision D9, the halted next state its decision D8 (log 5). -/
def Obligations.CallOnFullStackHalts : Prop :=
  ∀ (nnn : Addr) (s : State), s.SP.val = 16 → ∃ t, exec (.call nnn) s = .next t ∧ t.phase = .halted ∧
    t.fault = some ⟨.stackOverflow, s.PC, BitVec.ofNat 16 (0x2000 + nnn.toNat)⟩ ∧
    faultOutput t = (1, s.PC, BitVec.ofNat 16 (0x2000 + nnn.toNat)) ∧ SameMem s t

/-- R106, the source's property: a call and then a return resume after the call with the stack as deep as before. -/
def Obligations.CallThenRetResumesAfterCall : Prop :=
  ∀ (nnn : Addr) (s : State), s.SP.val < 16 →
    ∃ t u, exec (.call nnn) s = .next t ∧ exec .ret t = .next u ∧ u.PC = s.PC + 2 ∧ u.SP = s.SP

/-- R112. -/
def Obligations.SeSkipsWhenEqual : Prop :=
  ∀ (x : Reg) (kk : Byte) (s : State), ∃ t, exec (.se x kk) s = .next t ∧
    ((s.readV x).toNat = kk.toNat → t.PC.toNat = (s.PC.toNat + 4) % 65536) ∧
    ((s.readV x).toNat ≠ kk.toNat → t.PC.toNat = (s.PC.toNat + 2) % 65536) ∧ OnlyRegisters [] s t

/-- R113. -/
def Obligations.SneSkipsWhenNotEqual : Prop :=
  ∀ (x : Reg) (kk : Byte) (s : State), ∃ t, exec (.sne x kk) s = .next t ∧
    ((s.readV x).toNat ≠ kk.toNat → t.PC.toNat = (s.PC.toNat + 4) % 65536) ∧
    ((s.readV x).toNat = kk.toNat → t.PC.toNat = (s.PC.toNat + 2) % 65536) ∧ OnlyRegisters [] s t

/-- R120. -/
def Obligations.LdImmLoadsKk : Prop :=
  ∀ (x : Reg) (kk : Byte) (s : State), ∃ t, exec (.ldImm x kk) s = .next t ∧ t.readV x = kk ∧ t.PC = s.PC + 2 ∧
    OnlyRegisters [x] s t

/-- R121: modulo 256, and VF is not written as a flag. -/
def Obligations.AddImmWrapsWithoutFlag : Prop :=
  ∀ (x : Reg) (kk : Byte) (s : State), ∃ t, exec (.addImm x kk) s = .next t ∧
    (t.readV x).toNat = ((s.readV x).toNat + kk.toNat) % 256 ∧ t.PC = s.PC + 2 ∧ OnlyRegisters [x] s t

/-- R127. -/
def Obligations.LdRegCopies : Prop :=
  ∀ (x y : Reg) (s : State), ∃ t, exec (.ldReg x y) s = .next t ∧ t.readV x = s.readV y ∧ t.PC = s.PC + 2 ∧
    OnlyRegisters [x] s t

/-- R128: bit by bit, and no flag. -/
def Obligations.OrIsBitwise : Prop :=
  ∀ (x y : Reg) (s : State), ∃ t, exec (.orReg x y) s = .next t ∧
    (∀ b, b < 8 → (t.readV x).getLsbD b = ((s.readV x).getLsbD b || (s.readV y).getLsbD b)) ∧ t.PC = s.PC + 2 ∧
    OnlyRegisters [x] s t

/-- R129: bit by bit, and no flag. -/
def Obligations.AndIsBitwise : Prop :=
  ∀ (x y : Reg) (s : State), ∃ t, exec (.andReg x y) s = .next t ∧
    (∀ b, b < 8 → (t.readV x).getLsbD b = ((s.readV x).getLsbD b && (s.readV y).getLsbD b)) ∧ t.PC = s.PC + 2 ∧
    OnlyRegisters [x] s t

/-- R130: bit by bit, and no flag. -/
def Obligations.XorIsBitwise : Prop :=
  ∀ (x y : Reg) (s : State), ∃ t, exec (.xorReg x y) s = .next t ∧
    (∀ b, b < 8 → (t.readV x).getLsbD b = ((s.readV x).getLsbD b != (s.readV y).getLsbD b)) ∧ t.PC = s.PC + 2 ∧
    OnlyRegisters [x] s t

/-- R131: the 9-bit sum, and its carry to VF. With x = 15 the result is the last write, in the order of R131's
pseudocode (R126 marks that order as the spec's decision D6). -/
def Obligations.AddRegSetsCarry : Prop :=
  ∀ (x y : Reg) (s : State), ∃ t, exec (.addReg x y) s = .next t ∧
    (t.readV x).toNat = ((s.readV x).toNat + (s.readV y).toNat) % 256 ∧
    (x ≠ 15 → (t.readV 15).toNat = if 0xFF < (s.readV x).toNat + (s.readV y).toNat then 1 else 0) ∧
    t.PC = s.PC + 2 ∧ OnlyRegisters [x, 15] s t

/-- R132: the flag is 1 exactly when Vx is strictly greater; the difference wraps. With x = 15 the result is the last
write, in the order of R132's pseudocode (R126, the spec's decision D6). -/
def Obligations.SubSetsStrictlyGreater : Prop :=
  ∀ (x y : Reg) (s : State), ∃ t, exec (.sub x y) s = .next t ∧
    (t.readV x).toNat = ((s.readV x).toNat + 256 - (s.readV y).toNat) % 256 ∧
    (x ≠ 15 → (t.readV 15).toNat = if (s.readV x).toNat > (s.readV y).toNat then 1 else 0) ∧
    t.PC = s.PC + 2 ∧ OnlyRegisters [x, 15] s t

/-- R133: the bit shifted out to VF, whatever `y` is. With x = 15 the result is the last write, in the order of R133's
pseudocode (R126, the spec's decision D6). -/
def Obligations.ShrHalvesIntoFlag : Prop :=
  ∀ (x y : Reg) (s : State), ∃ t, exec (.shr x y) s = .next t ∧
    (t.readV x).toNat = (s.readV x).toNat / 2 ∧ (x ≠ 15 → (t.readV 15).toNat = (s.readV x).toNat % 2) ∧
    t.PC = s.PC + 2 ∧ OnlyRegisters [x, 15] s t

/-- R134: the flag is 1 exactly when Vy is strictly greater; the difference wraps. With x = 15 the result is the last
write, in the order of R134's pseudocode (R126, the spec's decision D6). -/
def Obligations.SubnSetsStrictlyGreater : Prop :=
  ∀ (x y : Reg) (s : State), ∃ t, exec (.subn x y) s = .next t ∧
    (t.readV x).toNat = ((s.readV y).toNat + 256 - (s.readV x).toNat) % 256 ∧
    (x ≠ 15 → (t.readV 15).toNat = if (s.readV y).toNat > (s.readV x).toNat then 1 else 0) ∧
    t.PC = s.PC + 2 ∧ OnlyRegisters [x, 15] s t

/-- R135: the high bit to VF, whatever `y` is. With x = 15 the result is the last write, in the order of R135's
pseudocode (R126, the spec's decision D6). -/
def Obligations.ShlDoublesIntoFlag : Prop :=
  ∀ (x y : Reg) (s : State), ∃ t, exec (.shl x y) s = .next t ∧
    (t.readV x).toNat = ((s.readV x).toNat * 2) % 256 ∧ (x ≠ 15 → (t.readV 15).toNat = (s.readV x).toNat / 128) ∧
    t.PC = s.PC + 2 ∧ OnlyRegisters [x, 15] s t

/-- R140: I is nnn zero-extended, with no check against the memory size. -/
def Obligations.LdILoadsNnn : Prop :=
  ∀ (nnn : Addr) (s : State), ∃ t, exec (.ldI nnn) s = .next t ∧ t.I.toNat = nnn.toNat ∧ t.PC = s.PC + 2 ∧
    SameV [] s t ∧ SameTimer s t ∧ SameStack s t ∧ SameScreen s t ∧ SameMem s t ∧ SameStatus s t ∧ t.diag = s.diag ∧
    SameInputs s t

/-- R141: whatever byte the step's random input is, the result is that byte masked by kk. -/
def Obligations.RndMasksRandomInput : Prop :=
  ∀ (x : Reg) (kk : Byte) (s : State), ∃ t, exec (.rnd x kk) s = .next t ∧
    (∀ b, b < 8 → (t.readV x).getLsbD b = (s.rnd.getLsbD b && kk.getLsbD b)) ∧ t.PC = s.PC + 2 ∧
    OnlyRegisters [x] s t

/-- R155: the timer as the step's tick left it. -/
def Obligations.LdVxDTReadsTimer : Prop :=
  ∀ (x : Reg) (s : State), ∃ t, exec (.ldVxDT x) s = .next t ∧ t.readV x = s.DT ∧ t.PC = s.PC + 2 ∧
    OnlyRegisters [x] s t

/-- R156: the timer is set and `last_tick` is not written. -/
def Obligations.LdDTVxSetsTimer : Prop :=
  ∀ (x : Reg) (s : State), ∃ t, exec (.ldDTVx x) s = .next t ∧ t.DT = s.readV x ∧ t.lastTick = s.lastTick ∧
    t.PC = s.PC + 2 ∧ SameV [] s t ∧ t.I = s.I ∧ SameStack s t ∧ SameScreen s t ∧ SameMem s t ∧ SameStatus s t ∧
    t.diag = s.diag ∧ SameInputs s t

/-- R96 (the spec's decision D10): an unknown word warns with the word and its address and advances PC by 2; nothing else
changes. -/
def Obligations.UnknownOnlyWarnsAndAdvances : Prop :=
  ∀ (w : Word) (s : State), ∃ t, exec (.unknown w) s = .next t ∧ t.diag = some (.unknownInstruction w s.PC) ∧
    t.PC = s.PC + 2 ∧ SameV [] s t ∧ t.I = s.I ∧ SameTimer s t ∧ SameStack s t ∧ SameScreen s t ∧ SameMem s t ∧
    SameStatus s t ∧ SameInputs s t

/-! ### Draw -/

/-- R145, R147, R148, R149: where all rows are in memory, the cells the sprite covers are XORed with 0xFF, every other
cell is as before, and VF is 1 exactly when a covered cell was on; nothing else changes. Where some row is not, the fault
SpriteReadOutOfBounds is raised, with PC and the word. That raising it ends in a next state with the fault record written
is the spec's decision D8 (R160) and the model's choice (log 5). With x or y = 15 the coordinate is the VF of before, as
R145's pseudocode says (R151, the spec's decision D5). -/
def Obligations.DrwXorsCoveredCells : Prop :=
  (∀ (x y : Reg) (n : Nibble) (s : State), SpriteInMemory s n → ∃ t, exec (.drw x y n) s = .next t ∧
    (∀ c r, c < 64 → r < 32 →
      (SpriteCovers s x y n c r → t.fb.read (r * 64 + c) = s.fb.read (r * 64 + c) ^^^ 0xFF) ∧
      (¬ SpriteCovers s x y n c r → t.fb.read (r * 64 + c) = s.fb.read (r * 64 + c))) ∧
    (∀ k, 2048 ≤ k → t.fb.read k = s.fb.read k) ∧
    ((∃ c r, SpriteCovers s x y n c r ∧ s.fb.read (r * 64 + c) = 0xFF) → t.readV 15 = 1) ∧
    ((¬ ∃ c r, SpriteCovers s x y n c r ∧ s.fb.read (r * 64 + c) = 0xFF) → t.readV 15 = 0) ∧
    t.PC = s.PC + 2 ∧ SameV [15] s t ∧ t.I = s.I ∧ SameTimer s t ∧ SameStack s t ∧ SameMem s t ∧ SameStatus s t ∧
    t.diag = s.diag ∧ SameInputs s t) ∧
  (∀ (x y : Reg) (n : Nibble) (s : State), ¬ SpriteInMemory s n → ∃ t, exec (.drw x y n) s = .next t ∧
    t.fault = some ⟨.spriteReadOutOfBounds, s.PC,
      BitVec.ofNat 16 (0xD000 + x.toNat * 256 + y.toNat * 16 + n.toNat)⟩)

/-- R161, R165: a sprite of n ≥ 1 rows whose last row address is past memory is SpriteReadOutOfBounds, read by
the host as code 4 with the PC and the word. The code is the spec's decision D9, the halted next state its decision D8
(log 5). -/
def Obligations.DrwBeyondMemoryHalts : Prop :=
  ∀ (x y : Reg) (n : Nibble) (s : State), 1 ≤ n.toNat → 4096 ≤ s.I.toNat + n.toNat - 1 →
    ∃ t, exec (.drw x y n) s = .next t ∧ t.phase = .halted ∧
      t.fault = some ⟨.spriteReadOutOfBounds, s.PC,
        BitVec.ofNat 16 (0xD000 + x.toNat * 256 + y.toNat * 16 + n.toNat)⟩ ∧
      faultOutput t = (4, s.PC, BitVec.ofNat 16 (0xD000 + x.toNat * 256 + y.toNat * 16 + n.toNat)) ∧ SameMem s t

/-- R150 (derived by the spec): no row, no memory read and no fault, whatever I is. VF is 0 and the framebuffer is
unchanged. -/
def Obligations.DrwZeroRowsClearsFlag : Prop :=
  ∀ (x y : Reg) (s : State), ∃ t, exec (.drw x y 0) s = .next t ∧ t.readV 15 = 0 ∧ t.PC = s.PC + 2 ∧
    OnlyRegisters [15] s t

/-- The source's example E7 for every sprite: drawing it again in the same place puts every cell back, and where the
first draw turned a cell on the second one collides. -/
def Obligations.DrwTwiceRestoresScreen : Prop :=
  ∀ (x y : Reg) (n : Nibble) (s : State), SpriteInMemory s n → x ≠ 15 → y ≠ 15 →
    ∃ t u, exec (.drw x y n) s = .next t ∧ exec (.drw x y n) t = .next u ∧ SameScreen s u ∧
      ((∃ c r, SpriteCovers s x y n c r ∧ s.fb.read (r * 64 + c) = 0x00) → u.readV 15 = 1)

/-! ### Encoding -/

/-- Words written out from the encodings of R88 and R71 decode to their instructions. -/
def Obligations.SampleWordsDecodeAsSpecified : Prop :=
  decode 0x00E0 = .cls ∧ decode 0x00EE = .ret ∧ decode 0x1ABC = .jp 0xABC ∧ decode 0x3342 = .se 0x3 0x42 ∧
  decode 0x8F14 = .addReg 0xF 0x1 ∧ decode 0x801E = .shl 0x0 0x1 ∧ decode 0xA123 = .ldI 0x123 ∧
  decode 0xC30F = .rnd 0x3 0x0F ∧ decode 0xDF12 = .drw 0xF 0x1 0x2 ∧ decode 0xF315 = .ldDTVx 0x3 ∧
  decode 0x5120 = .unknown 0x5120

/-- R88: every well-formed instruction, with every operand at every value, decodes from its word. -/
def Obligations.DecodeOfEncode : Prop := ∀ i : Instr, i.wf = true → decode (encode i) = i

/-- R85: every word decodes to a well-formed instruction, and that instruction encodes to the word. -/
def Obligations.EncodeOfDecode : Prop := ∀ w : Word, (decode w).wf = true ∧ encode (decode w) = w

/-- R81: a word is a row's instruction exactly when it matches the row's mask and pattern. So no two rows match one
word. -/
def Obligations.DecodeFollowsOpcodeMap : Prop :=
  ∀ (w : Word) (k : Nat) (row : OpcodeRow), opcodeMap[k]? = some row →
    (w &&& row.mask = row.pattern ↔ rowNumber (decode w) = some k)

/-- R82 (the spec's decision D10): the words that decode as unknown, family by family. -/
def Obligations.UnknownWordsAreExactlyListed : Prop :=
  ∀ w : Word, decode w = .unknown w ↔
    w.toNat / 4096 ∈ [0x5, 0x9, 0xB, 0xE] ∨
    (w.toNat / 4096 = 0x0 ∧ w.toNat ≠ 0x00E0 ∧ w.toNat ≠ 0x00EE) ∨
    (w.toNat / 4096 = 0x8 ∧ w.toNat % 16 ∈ [0x8, 0x9, 0xA, 0xB, 0xC, 0xD, 0xF]) ∨
    (w.toNat / 4096 = 0xF ∧ w.toNat % 256 ≠ 0x07 ∧ w.toNat % 256 ≠ 0x15)

/-! ### Invariants and isolation -/

/-- Every step keeps the invariant: canonical stores, a fault recorded exactly while Halted (R36), and, unless Halted,
the ranges of PC, pushed addresses (R26) and I (R28), and cells of 0x00 or 0xFF (R38). -/
def Obligations.StepKeepsInvariant : Prop := ∀ s t : State, s.Inv → step s = .next t → t.Inv

/-- Every request of the host keeps the invariant, a load included. -/
def Obligations.RequestsKeepInvariant : Prop :=
  ∀ (req : Request) (s t : State), s.Inv → serve req s = .next t → t.Inv

/-- Where the host's readings never decrease, the last decrement is never in the future (R34, R47). The schedule is the
model's field (log 1). -/
def Obligations.StepKeepsClockInvariant : Prop :=
  ∀ s t : State, s.ClockInv → step s = .next t → t.Completed → t.ClockInv

/-- R31 (derived by the spec, with its decision D18): slots at SP and above cannot be observed. Two states that differ only
there answer the same request alike, the fault included. A step is given one input for both, so nothing rests on the free
values that `step` draws (log 1, 2, 3). -/
def Obligations.DeadStackSlotsAreUnobservable : Prop :=
  ∀ (req : Request) (s t s' : State), SameButDeadSlots s t → serve req s = .next s' →
    ∃ t', serve req t = .next t' ∧
      (s'.phase = .halted → t'.phase = .halted ∧ t'.fault = s'.fault ∧ t'.mem = s'.mem) ∧
      (s'.phase ≠ .halted → SameButDeadSlots s' t')

/-- Two canonical stores that read alike everywhere are equal data (log 6). -/
def Obligations.CanonicalStoresAreDetermined : Prop :=
  ∀ (size : Nat) (m m' : Memory), m.wf size = true → m'.wf size = true → (∀ a, m.read a = m'.read a) → m = m'
end

