-- ==== Sys2Proof/Laws/Config.lean ====
section
/-! SUPPORT. The value of each parameter of R9, so that `simp` brings a width, a size or a bound to its numeral before
`omega`, and the two relations that R9 states among them. -/

namespace Sys2Proof.Config

@[simp] theorem memSize_eq : memSize = 4096 := rfl
@[simp] theorem loadOffset_eq : loadOffset = 512 := rfl
@[simp] theorem maxImage_eq : maxImage = 3584 := rfl
@[simp] theorem numRegs_eq : numRegs = 16 := rfl
@[simp] theorem regWidth_eq : regWidth = 8 := rfl
@[simp] theorem iWidth_eq : iWidth = 16 := rfl
@[simp] theorem pcWidth_eq : pcWidth = 16 := rfl
@[simp] theorem dtWidth_eq : dtWidth = 8 := rfl
@[simp] theorem stackDepth_eq : stackDepth = 16 := rfl
@[simp] theorem fbWidth_eq : fbWidth = 64 := rfl
@[simp] theorem fbHeight_eq : fbHeight = 32 := rfl
@[simp] theorem fbCells_eq : fbCells = 2048 := rfl
@[simp] theorem instrBytes_eq : instrBytes = 2 := rfl
@[simp] theorem timerPeriod_eq : timerPeriod = 16 := rfl

theorem maxImage_eq_sub : maxImage = memSize - loadOffset := rfl
theorem fbCells_eq_mul : fbCells = fbWidth * fbHeight := rfl

end Sys2Proof.Config
end

