-- ==== Sys2Proof/Laws/Decode.lean ====
section
/-! SUPPORT. The fields of a word and the words of the formats as numbers (30_encoding.md R71, R72), and what each field
of a format's word reads back as. -/

namespace Sys2Proof

theorem toNat_concat {m n : Nat} (a : BitVec m) (b : BitVec n) : (a ++ b).toNat = a.toNat * 2 ^ n + b.toNat := by
  rw [BitVec.toNat_append, ← Nat.shiftLeft_add_eq_or_of_lt b.isLt, Nat.shiftLeft_eq]

/-! ### Fields as numbers (R72) -/

theorem toNat_fieldFamily (w : Word) : (fieldFamily w).toNat = w.toNat / 4096 % 16 := by
  simp [fieldFamily, BitVec.extractLsb'_toNat, Nat.shiftRight_eq_div_pow]

theorem toNat_fieldX (w : Word) : (fieldX w).toNat = w.toNat / 256 % 16 := by
  simp [fieldX, BitVec.extractLsb'_toNat, Nat.shiftRight_eq_div_pow]

theorem toNat_fieldY (w : Word) : (fieldY w).toNat = w.toNat / 16 % 16 := by
  simp [fieldY, BitVec.extractLsb'_toNat, Nat.shiftRight_eq_div_pow]

theorem toNat_fieldN (w : Word) : (fieldN w).toNat = w.toNat % 16 := by
  simp [fieldN, BitVec.extractLsb'_toNat, Nat.shiftRight_eq_div_pow]

theorem toNat_fieldKK (w : Word) : (fieldKK w).toNat = w.toNat % 256 := by
  simp [fieldKK, BitVec.extractLsb'_toNat, Nat.shiftRight_eq_div_pow]

theorem toNat_fieldNNN (w : Word) : (fieldNNN w).toNat = w.toNat % 4096 := by
  simp [fieldNNN, BitVec.extractLsb'_toNat, Nat.shiftRight_eq_div_pow]

/-! ### Words as numbers (R53, R71) -/

/-- Two bytes make `hi * 256 + lo` (R13, R53). -/
theorem toNat_wordOfBytes (hi lo : Byte) : (wordOfBytes hi lo).toNat = hi.toNat * 256 + lo.toNat := toNat_concat hi lo

theorem toNat_encodeNNN (f : Nibble) (nnn : Addr) : (encodeNNN f nnn).toNat = f.toNat * 4096 + nnn.toNat :=
  toNat_concat f nnn

theorem toNat_encodeXKK (f : Nibble) (x : Reg) (kk : Byte) :
    (encodeXKK f x kk).toNat = f.toNat * 4096 + x.toNat * 256 + kk.toNat := by
  refine (toNat_concat (f ++ x) kk).trans ?_
  rw [toNat_concat]
  omega

theorem toNat_encodeXYN (f : Nibble) (x y : Reg) (n : Nibble) :
    (encodeXYN f x y n).toNat = f.toNat * 4096 + x.toNat * 256 + y.toNat * 16 + n.toNat := by
  refine (toNat_concat (f ++ x ++ y) n).trans ?_
  rw [toNat_concat, toNat_concat]
  omega

/-! ### Each field of a format's word -/

@[simp] theorem fieldFamily_encodeNNN (f : Nibble) (nnn : Addr) : fieldFamily (encodeNNN f nnn) = f := by
  apply BitVec.eq_of_toNat_eq
  rw [toNat_fieldFamily, toNat_encodeNNN]
  omega

@[simp] theorem fieldNNN_encodeNNN (f : Nibble) (nnn : Addr) : fieldNNN (encodeNNN f nnn) = nnn := by
  apply BitVec.eq_of_toNat_eq
  rw [toNat_fieldNNN, toNat_encodeNNN]
  omega

@[simp] theorem fieldFamily_encodeXKK (f : Nibble) (x : Reg) (kk : Byte) : fieldFamily (encodeXKK f x kk) = f := by
  apply BitVec.eq_of_toNat_eq
  rw [toNat_fieldFamily, toNat_encodeXKK]
  omega

@[simp] theorem fieldX_encodeXKK (f : Nibble) (x : Reg) (kk : Byte) : fieldX (encodeXKK f x kk) = x := by
  apply BitVec.eq_of_toNat_eq
  rw [toNat_fieldX, toNat_encodeXKK]
  omega

@[simp] theorem fieldKK_encodeXKK (f : Nibble) (x : Reg) (kk : Byte) : fieldKK (encodeXKK f x kk) = kk := by
  apply BitVec.eq_of_toNat_eq
  rw [toNat_fieldKK, toNat_encodeXKK]
  omega

@[simp] theorem fieldFamily_encodeXYN (f : Nibble) (x y : Reg) (n : Nibble) : fieldFamily (encodeXYN f x y n) = f := by
  apply BitVec.eq_of_toNat_eq
  rw [toNat_fieldFamily, toNat_encodeXYN]
  omega

@[simp] theorem fieldX_encodeXYN (f : Nibble) (x y : Reg) (n : Nibble) : fieldX (encodeXYN f x y n) = x := by
  apply BitVec.eq_of_toNat_eq
  rw [toNat_fieldX, toNat_encodeXYN]
  omega

@[simp] theorem fieldY_encodeXYN (f : Nibble) (x y : Reg) (n : Nibble) : fieldY (encodeXYN f x y n) = y := by
  apply BitVec.eq_of_toNat_eq
  rw [toNat_fieldY, toNat_encodeXYN]
  omega

@[simp] theorem fieldN_encodeXYN (f : Nibble) (x y : Reg) (n : Nibble) : fieldN (encodeXYN f x y n) = n := by
  apply BitVec.eq_of_toNat_eq
  rw [toNat_fieldN, toNat_encodeXYN]
  omega

/-! ### A word is its fields -/

theorem encodeNNN_fields (w : Word) : encodeNNN (fieldFamily w) (fieldNNN w) = w := by
  apply BitVec.eq_of_toNat_eq
  rw [toNat_encodeNNN, toNat_fieldFamily, toNat_fieldNNN]
  omega

theorem encodeXKK_fields (w : Word) : encodeXKK (fieldFamily w) (fieldX w) (fieldKK w) = w := by
  apply BitVec.eq_of_toNat_eq
  rw [toNat_encodeXKK, toNat_fieldFamily, toNat_fieldX, toNat_fieldKK]
  omega

theorem encodeXYN_fields (w : Word) : encodeXYN (fieldFamily w) (fieldX w) (fieldY w) (fieldN w) = w := by
  apply BitVec.eq_of_toNat_eq
  rw [toNat_encodeXYN, toNat_fieldFamily, toNat_fieldX, toNat_fieldY, toNat_fieldN]
  omega

/-! ### What the masks of the opcode map keep (R81) -/

theorem nibble_and_ones (f : Nibble) : f &&& 0xF = f := by
  revert f
  decide

theorem byte_and_ones (b : Byte) : b &&& 0xFF = b := BitVec.and_allOnes

/-- Mask 0xF000 keeps the family. -/
theorem toNat_and_F000 (w : Word) : (w &&& 0xF000).toNat = w.toNat / 4096 * 4096 := by
  have h : encodeNNN (fieldFamily w) (fieldNNN w) &&& 0xF000 = encodeNNN (fieldFamily w) 0 := by
    refine (BitVec.and_append (x₂ := 0xF#4) (y₂ := 0x000#12)).trans ?_
    rw [show fieldFamily w &&& 0xF#4 = fieldFamily w from nibble_and_ones _, BitVec.and_zero]
    rfl
  rw [encodeNNN_fields] at h
  rw [h, toNat_encodeNNN, toNat_fieldFamily]
  simp only [BitVec.ofNat_eq_ofNat, BitVec.toNat_ofNat]
  omega

/-- Mask 0xF00F keeps the family and `n`. -/
theorem toNat_and_F00F (w : Word) : (w &&& 0xF00F).toNat = w.toNat / 4096 * 4096 + w.toNat % 16 := by
  have h : encodeXYN (fieldFamily w) (fieldX w) (fieldY w) (fieldN w) &&& 0xF00F =
      encodeXYN (fieldFamily w) 0 0 (fieldN w) := by
    refine (BitVec.and_append (x₂ := 0xF00#12) (y₂ := 0xF#4)).trans ?_
    rw [show fieldN w &&& 0xF#4 = fieldN w from nibble_and_ones _]
    refine congrArg (· ++ fieldN w) ?_
    refine (BitVec.and_append (x₂ := 0xF0#8) (y₂ := 0x0#4)).trans ?_
    rw [BitVec.and_zero]
    refine congrArg (· ++ 0x0#4) ?_
    refine (BitVec.and_append (x₂ := 0xF#4) (y₂ := 0x0#4)).trans ?_
    rw [show fieldFamily w &&& 0xF#4 = fieldFamily w from nibble_and_ones _, BitVec.and_zero]
    rfl
  rw [encodeXYN_fields] at h
  rw [h, toNat_encodeXYN, toNat_fieldFamily, toNat_fieldN]
  simp only [BitVec.ofNat_eq_ofNat, BitVec.toNat_ofNat]
  omega

/-- Mask 0xF0FF keeps the family and `kk`. -/
theorem toNat_and_F0FF (w : Word) : (w &&& 0xF0FF).toNat = w.toNat / 4096 * 4096 + w.toNat % 256 := by
  have h : encodeXKK (fieldFamily w) (fieldX w) (fieldKK w) &&& 0xF0FF = encodeXKK (fieldFamily w) 0 (fieldKK w) := by
    refine (BitVec.and_append (x₂ := 0xF0#8) (y₂ := 0xFF#8)).trans ?_
    rw [show fieldKK w &&& 0xFF#8 = fieldKK w from byte_and_ones _]
    refine congrArg (· ++ fieldKK w) ?_
    refine (BitVec.and_append (x₂ := 0xF#4) (y₂ := 0x0#4)).trans ?_
    rw [show fieldFamily w &&& 0xF#4 = fieldFamily w from nibble_and_ones _, BitVec.and_zero]
    rfl
  rw [encodeXKK_fields] at h
  rw [h, toNat_encodeXKK, toNat_fieldFamily, toNat_fieldKK]
  simp only [BitVec.ofNat_eq_ofNat, BitVec.toNat_ofNat]
  omega

/-- Mask 0xFFFF keeps the word. -/
theorem and_FFFF (w : Word) : w &&& 0xFFFF = w := BitVec.and_allOnes

/-! ### Bytes -/

/-- The two bytes of a word put together again give the word (R53). -/
theorem wordOfBytes_bytesOfWord (w : Word) : wordOfBytes (w.extractLsb' 8 8) (w.extractLsb' 0 8) = w := by
  apply BitVec.eq_of_toNat_eq
  rw [toNat_wordOfBytes]
  simp only [BitVec.extractLsb'_toNat, Nat.shiftRight_eq_div_pow]
  omega

/-- The decoder of bytes reads a word laid out in memory order as the decoder of words reads it. -/
theorem decodeBytes_bytesOfWord (w : Word) (rest : List Byte) : decodeBytes (bytesOfWord w ++ rest) = .ok (decode w, rest) := by
  simp [bytesOfWord, decodeBytes, wordOfBytes_bytesOfWord]

end Sys2Proof
end

