-- ==== Sys2Proof/Laws/Memory.lean ====
section
/-! SUPPORT. The laws of the store of bytes: read after write, and that every operation keeps the canonical form. -/

namespace Sys2Proof.Machine

/-! ### Read after write, in every store -/

theorem Memory.read_erase (m : Memory) (a k : Nat) : (m.erase a).read k = if k = a then Memory.unlisted else m.read k := by
  induction m with
  | nil => simp [Memory.erase, Memory.read]
  | cons c rest ih =>
    obtain ⟨b, w⟩ := c
    unfold Memory.erase at ih ⊢
    by_cases hb : b = a
    · subst hb
      simp only [List.filter_cons, bne_self_eq_false, Bool.false_eq_true, if_false, Memory.read, ih]
      split <;> rfl
    · have : (b != a) = true := by simp [hb]
      simp only [List.filter_cons, this, if_true, Memory.read, ih]
      split
      · next h => rw [if_neg (by omega)]
      · rfl

theorem Memory.read_insert (m : Memory) (a k : Nat) (v : Byte) (h : m.read k = Memory.unlisted ∨ k ≠ a)
    (hfree : ∀ c ∈ m, c.1 ≠ a) : (m.insert a v).read k = if k = a then v else m.read k := by
  induction m with
  | nil => simp [Memory.insert, Memory.read]
  | cons c rest ih =>
    obtain ⟨b, w⟩ := c
    have hb : b ≠ a := hfree (b, w) (by simp)
    have hrest : ∀ c ∈ rest, c.1 ≠ a := fun c hc => hfree c (by simp [hc])
    simp only [Memory.insert]
    split
    · simp only [Memory.read]
    · simp only [Memory.read] at h ⊢
      by_cases hkb : k = b
      · simp only [hkb, if_true, if_neg hb]
      · simp only [if_neg hkb] at h ⊢
        exact ih h hrest

/-- A byte reads as written, and every other byte as before. -/
theorem Memory.read_write (m : Memory) (a k : Nat) (v : Byte) :
    (m.write a v).read k = if k = a then v else m.read k := by
  unfold Memory.write
  split
  · next h => rw [Memory.read_erase, h]
  · have hfree : ∀ c ∈ m.erase a, c.1 ≠ a := by simp [Memory.erase]
    rw [Memory.read_insert _ _ _ _ _ hfree, Memory.read_erase]
    · split <;> simp_all
    · rw [Memory.read_erase]
      by_cases hk : k = a <;> simp [hk]

@[simp] theorem Memory.read_write_same (m : Memory) (a : Nat) (v : Byte) : (m.write a v).read a = v := by
  rw [Memory.read_write, if_pos rfl]

theorem Memory.read_write_other (m : Memory) (a k : Nat) (v : Byte) (h : k ≠ a) : (m.write a v).read k = m.read k := by
  rw [Memory.read_write, if_neg h]

/-- A block of bytes reads as written within it and as before outside it. -/
theorem Memory.read_writeBytes (bs : List Byte) (m : Memory) (a k : Nat) :
    (m.writeBytes a bs).read k = if h : a ≤ k ∧ k - a < bs.length then bs[k - a]'h.2 else m.read k := by
  induction bs generalizing m a with
  | nil => simp [Memory.writeBytes]
  | cons b rest ih =>
    rw [Memory.writeBytes, ih, Memory.read_write]
    by_cases hk : k = a
    · subst hk
      rw [dif_neg (by omega), dif_pos (by simp)]
      simp
    · by_cases hin : a ≤ k ∧ k - a < rest.length + 1
      · obtain ⟨d, hd⟩ : ∃ d, k - a = d + 1 := ⟨k - a - 1, by omega⟩
        have hd' : k - (a + 1) = d := by omega
        rw [dif_pos (by omega), dif_pos (by simpa using hin)]
        simp [hd, hd']
      · rw [dif_neg (by omega), dif_neg (by simpa using hin), if_neg hk]

/-! ### The canonical form is kept -/

theorem Memory.wfFrom_mono {size lo lo' : Nat} {m : Memory} (h : m.wfFrom size lo = true) (hle : lo' ≤ lo) :
    m.wfFrom size lo' = true := by
  cases m with
  | nil => rfl
  | cons c rest =>
    simp only [Memory.wfFrom, Bool.and_eq_true, decide_eq_true_eq] at h ⊢
    exact ⟨⟨⟨by omega, h.1.1.2⟩, h.1.2⟩, h.2⟩

theorem Memory.wfFrom_erase {size lo : Nat} {m : Memory} (h : m.wfFrom size lo = true) (k : Nat) :
    (m.erase k).wfFrom size lo = true := by
  induction m generalizing lo with
  | nil => rfl
  | cons c rest ih =>
    obtain ⟨a, b⟩ := c
    simp only [Memory.wfFrom, Bool.and_eq_true, decide_eq_true_eq] at h
    have ih' := ih h.2
    unfold Memory.erase at ih' ⊢
    rw [List.filter_cons]
    split
    · simp only [Memory.wfFrom, Bool.and_eq_true, decide_eq_true_eq]
      exact ⟨h.1, ih'⟩
    · exact Memory.wfFrom_mono ih' (by omega)

theorem Memory.wfFrom_insert {size lo : Nat} {m : Memory} (h : m.wfFrom size lo = true) (k : Nat) (v : Byte)
    (hlo : lo ≤ k) (hk : k < size) (hv : v ≠ Memory.unlisted) (hfree : ∀ c ∈ m, c.1 ≠ k) :
    (m.insert k v).wfFrom size lo = true := by
  induction m generalizing lo with
  | nil => simp [Memory.insert, Memory.wfFrom, hlo, hk, hv]
  | cons c rest ih =>
    obtain ⟨a, b⟩ := c
    have ha : a ≠ k := hfree (a, b) (by simp)
    simp only [Memory.wfFrom, Bool.and_eq_true, decide_eq_true_eq] at h
    simp only [Memory.insert]
    split
    · simp only [Memory.wfFrom, Bool.and_eq_true, decide_eq_true_eq]
      exact ⟨⟨⟨hlo, hk⟩, by simpa using hv⟩, ⟨⟨by omega, h.1.1.2⟩, h.1.2⟩, h.2⟩
    · simp only [Memory.wfFrom, Bool.and_eq_true, decide_eq_true_eq]
      exact ⟨h.1, ih h.2 (by omega) fun c hc => hfree c (by simp [hc])⟩

theorem Memory.wf_write {size : Nat} {m : Memory} (h : m.wf size = true) (k : Nat) (v : Byte) (hk : k < size) :
    (m.write k v).wf size = true := by
  unfold Memory.write
  split
  · exact Memory.wfFrom_erase h k
  · next hv => exact Memory.wfFrom_insert (Memory.wfFrom_erase h k) k v (by omega) hk hv (by simp [Memory.erase])

theorem Memory.wf_writeBytes {size : Nat} (bs : List Byte) {m : Memory} (h : m.wf size = true) (a : Nat)
    (hfit : a + bs.length ≤ size) : (m.writeBytes a bs).wf size = true := by
  induction bs generalizing m a with
  | nil => exact h
  | cons b rest ih =>
    simp only [List.length_cons] at hfit
    exact ih (Memory.wf_write h a b (by omega)) (a + 1) (by omega)

theorem Memory.wfFrom_tabulate (f : Nat → Byte) (n a : Nat) : (Memory.tabulate f n a).wfFrom (a + n) a = true := by
  induction n generalizing a with
  | zero => rfl
  | succ n ih =>
    have ih' := ih (a + 1)
    rw [show a + 1 + n = a + (n + 1) by omega] at ih'
    simp only [Memory.tabulate]
    split
    · exact Memory.wfFrom_mono ih' (by omega)
    · next hv =>
      simp only [Memory.wfFrom, Bool.and_eq_true, decide_eq_true_eq]
      exact ⟨⟨⟨by omega, by omega⟩, by simpa using hv⟩, ih'⟩

/-- The framebuffer a fatal fault leaves is in canonical form, whatever its cells are. -/
theorem Memory.wf_tabulate (f : Nat → Byte) (n : Nat) : (Memory.tabulate f n 0).wf n = true := by
  have h := Memory.wfFrom_tabulate f n 0
  rwa [Nat.zero_add] at h

@[simp] theorem Memory.wf_clearScreen (n : Nat) : Memory.clearScreen.wf n = true := rfl

@[simp] theorem Memory.read_clearScreen (k : Nat) : Memory.clearScreen.read k = 0x00 := rfl

/-! ### What a canonical store lists -/

/-- Below the first address of a canonical store every cell is unlisted. -/
theorem Memory.read_below {size lo k : Nat} {m : Memory} (h : m.wfFrom size lo = true) (hk : k < lo) :
    m.read k = Memory.unlisted := by
  induction m generalizing lo with
  | nil => rfl
  | cons c rest ih =>
    obtain ⟨a, b⟩ := c
    simp only [Memory.wfFrom, Bool.and_eq_true, decide_eq_true_eq] at h
    simp only [Memory.read]
    rw [if_neg (by omega)]
    exact ih h.2 (by omega)

/-- Past its size a canonical store is unlisted. -/
theorem Memory.read_beyond {size lo k : Nat} {m : Memory} (h : m.wfFrom size lo = true) (hk : size ≤ k) :
    m.read k = Memory.unlisted := by
  induction m generalizing lo with
  | nil => rfl
  | cons c rest ih =>
    obtain ⟨a, b⟩ := c
    simp only [Memory.wfFrom, Bool.and_eq_true, decide_eq_true_eq] at h
    simp only [Memory.read]
    rw [if_neg (by omega)]
    exact ih h.2

end Sys2Proof.Machine
end

