-- ==== Sys2Proof/Laws/State.lean ====
section
/-! SUPPORT. One lemma per field per update of State, each true by unfolding once, so that no later proof unfolds a
record update. The fields a fatal fault leaves free have none: no claim rests on them. -/

namespace Sys2Proof.Machine

variable (s : State)

/-! ### The bounds of the registers, as numerals -/

theorem State.SP_le : s.SP.val ≤ 16 := Nat.le_of_lt_succ s.SP.isLt
theorem State.PC_lt : s.PC.toNat < 65536 := s.PC.isLt
theorem State.I_lt : s.I.toNat < 65536 := s.I.isLt

/-! ### writeV -/

@[simp] theorem State.writeV_mem (x : Reg) (v : Byte) : (s.writeV x v).mem = s.mem := rfl
@[simp] theorem State.writeV_V (x : Reg) (v : Byte) : (s.writeV x v).V = s.V.set x.toNat v x.isLt := rfl
@[simp] theorem State.writeV_I (x : Reg) (v : Byte) : (s.writeV x v).I = s.I := rfl
@[simp] theorem State.writeV_PC (x : Reg) (v : Byte) : (s.writeV x v).PC = s.PC := rfl
@[simp] theorem State.writeV_DT (x : Reg) (v : Byte) : (s.writeV x v).DT = s.DT := rfl
@[simp] theorem State.writeV_stack (x : Reg) (v : Byte) : (s.writeV x v).stack = s.stack := rfl
@[simp] theorem State.writeV_SP (x : Reg) (v : Byte) : (s.writeV x v).SP = s.SP := rfl
@[simp] theorem State.writeV_fb (x : Reg) (v : Byte) : (s.writeV x v).fb = s.fb := rfl
@[simp] theorem State.writeV_lastTick (x : Reg) (v : Byte) : (s.writeV x v).lastTick = s.lastTick := rfl
@[simp] theorem State.writeV_phase (x : Reg) (v : Byte) : (s.writeV x v).phase = s.phase := rfl
@[simp] theorem State.writeV_fault (x : Reg) (v : Byte) : (s.writeV x v).fault = s.fault := rfl
@[simp] theorem State.writeV_diag (x : Reg) (v : Byte) : (s.writeV x v).diag = s.diag := rfl
@[simp] theorem State.writeV_now (x : Reg) (v : Byte) : (s.writeV x v).now = s.now := rfl
@[simp] theorem State.writeV_rnd (x : Reg) (v : Byte) : (s.writeV x v).rnd = s.rnd := rfl
@[simp] theorem State.writeV_schedule (x : Reg) (v : Byte) : (s.writeV x v).schedule = s.schedule := rfl
@[simp] theorem State.writeV_draws (x : Reg) (v : Byte) : (s.writeV x v).draws = s.draws := rfl
@[simp] theorem State.writeV_loaded (x : Reg) (v : Byte) : (s.writeV x v).loaded = s.loaded := rfl

/-! ### setI -/

@[simp] theorem State.setI_mem (v : Word) : (s.setI v).mem = s.mem := rfl
@[simp] theorem State.setI_V (v : Word) : (s.setI v).V = s.V := rfl
@[simp] theorem State.setI_I (v : Word) : (s.setI v).I = v := rfl
@[simp] theorem State.setI_PC (v : Word) : (s.setI v).PC = s.PC := rfl
@[simp] theorem State.setI_DT (v : Word) : (s.setI v).DT = s.DT := rfl
@[simp] theorem State.setI_stack (v : Word) : (s.setI v).stack = s.stack := rfl
@[simp] theorem State.setI_SP (v : Word) : (s.setI v).SP = s.SP := rfl
@[simp] theorem State.setI_fb (v : Word) : (s.setI v).fb = s.fb := rfl
@[simp] theorem State.setI_lastTick (v : Word) : (s.setI v).lastTick = s.lastTick := rfl
@[simp] theorem State.setI_phase (v : Word) : (s.setI v).phase = s.phase := rfl
@[simp] theorem State.setI_fault (v : Word) : (s.setI v).fault = s.fault := rfl
@[simp] theorem State.setI_diag (v : Word) : (s.setI v).diag = s.diag := rfl
@[simp] theorem State.setI_now (v : Word) : (s.setI v).now = s.now := rfl
@[simp] theorem State.setI_rnd (v : Word) : (s.setI v).rnd = s.rnd := rfl
@[simp] theorem State.setI_schedule (v : Word) : (s.setI v).schedule = s.schedule := rfl
@[simp] theorem State.setI_draws (v : Word) : (s.setI v).draws = s.draws := rfl
@[simp] theorem State.setI_loaded (v : Word) : (s.setI v).loaded = s.loaded := rfl

/-! ### setDT -/

@[simp] theorem State.setDT_mem (v : Byte) : (s.setDT v).mem = s.mem := rfl
@[simp] theorem State.setDT_V (v : Byte) : (s.setDT v).V = s.V := rfl
@[simp] theorem State.setDT_I (v : Byte) : (s.setDT v).I = s.I := rfl
@[simp] theorem State.setDT_PC (v : Byte) : (s.setDT v).PC = s.PC := rfl
@[simp] theorem State.setDT_DT (v : Byte) : (s.setDT v).DT = v := rfl
@[simp] theorem State.setDT_stack (v : Byte) : (s.setDT v).stack = s.stack := rfl
@[simp] theorem State.setDT_SP (v : Byte) : (s.setDT v).SP = s.SP := rfl
@[simp] theorem State.setDT_fb (v : Byte) : (s.setDT v).fb = s.fb := rfl
@[simp] theorem State.setDT_lastTick (v : Byte) : (s.setDT v).lastTick = s.lastTick := rfl
@[simp] theorem State.setDT_phase (v : Byte) : (s.setDT v).phase = s.phase := rfl
@[simp] theorem State.setDT_fault (v : Byte) : (s.setDT v).fault = s.fault := rfl
@[simp] theorem State.setDT_diag (v : Byte) : (s.setDT v).diag = s.diag := rfl
@[simp] theorem State.setDT_now (v : Byte) : (s.setDT v).now = s.now := rfl
@[simp] theorem State.setDT_rnd (v : Byte) : (s.setDT v).rnd = s.rnd := rfl
@[simp] theorem State.setDT_schedule (v : Byte) : (s.setDT v).schedule = s.schedule := rfl
@[simp] theorem State.setDT_draws (v : Byte) : (s.setDT v).draws = s.draws := rfl
@[simp] theorem State.setDT_loaded (v : Byte) : (s.setDT v).loaded = s.loaded := rfl

/-! ### setFb -/

@[simp] theorem State.setFb_mem (fb : Memory) : (s.setFb fb).mem = s.mem := rfl
@[simp] theorem State.setFb_V (fb : Memory) : (s.setFb fb).V = s.V := rfl
@[simp] theorem State.setFb_I (fb : Memory) : (s.setFb fb).I = s.I := rfl
@[simp] theorem State.setFb_PC (fb : Memory) : (s.setFb fb).PC = s.PC := rfl
@[simp] theorem State.setFb_DT (fb : Memory) : (s.setFb fb).DT = s.DT := rfl
@[simp] theorem State.setFb_stack (fb : Memory) : (s.setFb fb).stack = s.stack := rfl
@[simp] theorem State.setFb_SP (fb : Memory) : (s.setFb fb).SP = s.SP := rfl
@[simp] theorem State.setFb_fb (fb : Memory) : (s.setFb fb).fb = fb := rfl
@[simp] theorem State.setFb_lastTick (fb : Memory) : (s.setFb fb).lastTick = s.lastTick := rfl
@[simp] theorem State.setFb_phase (fb : Memory) : (s.setFb fb).phase = s.phase := rfl
@[simp] theorem State.setFb_fault (fb : Memory) : (s.setFb fb).fault = s.fault := rfl
@[simp] theorem State.setFb_diag (fb : Memory) : (s.setFb fb).diag = s.diag := rfl
@[simp] theorem State.setFb_now (fb : Memory) : (s.setFb fb).now = s.now := rfl
@[simp] theorem State.setFb_rnd (fb : Memory) : (s.setFb fb).rnd = s.rnd := rfl
@[simp] theorem State.setFb_schedule (fb : Memory) : (s.setFb fb).schedule = s.schedule := rfl
@[simp] theorem State.setFb_draws (fb : Memory) : (s.setFb fb).draws = s.draws := rfl
@[simp] theorem State.setFb_loaded (fb : Memory) : (s.setFb fb).loaded = s.loaded := rfl

/-! ### warn -/

@[simp] theorem State.warn_mem (w : Warning) : (s.warn w).mem = s.mem := rfl
@[simp] theorem State.warn_V (w : Warning) : (s.warn w).V = s.V := rfl
@[simp] theorem State.warn_I (w : Warning) : (s.warn w).I = s.I := rfl
@[simp] theorem State.warn_PC (w : Warning) : (s.warn w).PC = s.PC := rfl
@[simp] theorem State.warn_DT (w : Warning) : (s.warn w).DT = s.DT := rfl
@[simp] theorem State.warn_stack (w : Warning) : (s.warn w).stack = s.stack := rfl
@[simp] theorem State.warn_SP (w : Warning) : (s.warn w).SP = s.SP := rfl
@[simp] theorem State.warn_fb (w : Warning) : (s.warn w).fb = s.fb := rfl
@[simp] theorem State.warn_lastTick (w : Warning) : (s.warn w).lastTick = s.lastTick := rfl
@[simp] theorem State.warn_phase (w : Warning) : (s.warn w).phase = s.phase := rfl
@[simp] theorem State.warn_fault (w : Warning) : (s.warn w).fault = s.fault := rfl
@[simp] theorem State.warn_diag (w : Warning) : (s.warn w).diag = some w := rfl
@[simp] theorem State.warn_now (w : Warning) : (s.warn w).now = s.now := rfl
@[simp] theorem State.warn_rnd (w : Warning) : (s.warn w).rnd = s.rnd := rfl
@[simp] theorem State.warn_schedule (w : Warning) : (s.warn w).schedule = s.schedule := rfl
@[simp] theorem State.warn_draws (w : Warning) : (s.warn w).draws = s.draws := rfl
@[simp] theorem State.warn_loaded (w : Warning) : (s.warn w).loaded = s.loaded := rfl

/-! ### pushAt -/

@[simp] theorem State.pushAt_mem (v : Word) (h : s.SP.val < 16) : (s.pushAt v h).mem = s.mem := rfl
@[simp] theorem State.pushAt_V (v : Word) (h : s.SP.val < 16) : (s.pushAt v h).V = s.V := rfl
@[simp] theorem State.pushAt_I (v : Word) (h : s.SP.val < 16) : (s.pushAt v h).I = s.I := rfl
@[simp] theorem State.pushAt_PC (v : Word) (h : s.SP.val < 16) : (s.pushAt v h).PC = s.PC := rfl
@[simp] theorem State.pushAt_DT (v : Word) (h : s.SP.val < 16) : (s.pushAt v h).DT = s.DT := rfl
@[simp] theorem State.pushAt_stack (v : Word) (h : s.SP.val < 16) : (s.pushAt v h).stack = s.stack.set s.SP.val v h := rfl
@[simp] theorem State.pushAt_SP (v : Word) (h : s.SP.val < 16) : (s.pushAt v h).SP = ⟨s.SP.val + 1, Nat.succ_lt_succ h⟩ := rfl
@[simp] theorem State.pushAt_fb (v : Word) (h : s.SP.val < 16) : (s.pushAt v h).fb = s.fb := rfl
@[simp] theorem State.pushAt_lastTick (v : Word) (h : s.SP.val < 16) : (s.pushAt v h).lastTick = s.lastTick := rfl
@[simp] theorem State.pushAt_phase (v : Word) (h : s.SP.val < 16) : (s.pushAt v h).phase = s.phase := rfl
@[simp] theorem State.pushAt_fault (v : Word) (h : s.SP.val < 16) : (s.pushAt v h).fault = s.fault := rfl
@[simp] theorem State.pushAt_diag (v : Word) (h : s.SP.val < 16) : (s.pushAt v h).diag = s.diag := rfl
@[simp] theorem State.pushAt_now (v : Word) (h : s.SP.val < 16) : (s.pushAt v h).now = s.now := rfl
@[simp] theorem State.pushAt_rnd (v : Word) (h : s.SP.val < 16) : (s.pushAt v h).rnd = s.rnd := rfl
@[simp] theorem State.pushAt_schedule (v : Word) (h : s.SP.val < 16) : (s.pushAt v h).schedule = s.schedule := rfl
@[simp] theorem State.pushAt_draws (v : Word) (h : s.SP.val < 16) : (s.pushAt v h).draws = s.draws := rfl
@[simp] theorem State.pushAt_loaded (v : Word) (h : s.SP.val < 16) : (s.pushAt v h).loaded = s.loaded := rfl

/-! ### dropTop -/

@[simp] theorem State.dropTop_mem : (s.dropTop).mem = s.mem := rfl
@[simp] theorem State.dropTop_V : (s.dropTop).V = s.V := rfl
@[simp] theorem State.dropTop_I : (s.dropTop).I = s.I := rfl
@[simp] theorem State.dropTop_PC : (s.dropTop).PC = s.PC := rfl
@[simp] theorem State.dropTop_DT : (s.dropTop).DT = s.DT := rfl
@[simp] theorem State.dropTop_stack : (s.dropTop).stack = s.stack := rfl
@[simp] theorem State.dropTop_fb : (s.dropTop).fb = s.fb := rfl
@[simp] theorem State.dropTop_lastTick : (s.dropTop).lastTick = s.lastTick := rfl
@[simp] theorem State.dropTop_phase : (s.dropTop).phase = s.phase := rfl
@[simp] theorem State.dropTop_fault : (s.dropTop).fault = s.fault := rfl
@[simp] theorem State.dropTop_diag : (s.dropTop).diag = s.diag := rfl
@[simp] theorem State.dropTop_now : (s.dropTop).now = s.now := rfl
@[simp] theorem State.dropTop_rnd : (s.dropTop).rnd = s.rnd := rfl
@[simp] theorem State.dropTop_schedule : (s.dropTop).schedule = s.schedule := rfl
@[simp] theorem State.dropTop_draws : (s.dropTop).draws = s.draws := rfl
@[simp] theorem State.dropTop_loaded : (s.dropTop).loaded = s.loaded := rfl

/-! ### raiseFatal -/

@[simp] theorem State.raiseFatal_mem (k : FatalKind) (w : Word) : (s.raiseFatal k w).mem = s.mem := rfl
@[simp] theorem State.raiseFatal_fb (k : FatalKind) (w : Word) : (s.raiseFatal k w).fb = Memory.tabulate (Config.haltedFb s.draws) Config.fbCells 0 := rfl
@[simp] theorem State.raiseFatal_phase (k : FatalKind) (w : Word) : (s.raiseFatal k w).phase = .halted := rfl
@[simp] theorem State.raiseFatal_fault (k : FatalKind) (w : Word) : (s.raiseFatal k w).fault = some ⟨k, s.PC, w⟩ := rfl
@[simp] theorem State.raiseFatal_diag (k : FatalKind) (w : Word) : (s.raiseFatal k w).diag = none := rfl
@[simp] theorem State.raiseFatal_now (k : FatalKind) (w : Word) : (s.raiseFatal k w).now = s.now := rfl
@[simp] theorem State.raiseFatal_rnd (k : FatalKind) (w : Word) : (s.raiseFatal k w).rnd = s.rnd := rfl
@[simp] theorem State.raiseFatal_schedule (k : FatalKind) (w : Word) : (s.raiseFatal k w).schedule = s.schedule := rfl
@[simp] theorem State.raiseFatal_draws (k : FatalKind) (w : Word) : (s.raiseFatal k w).draws = s.draws := rfl
@[simp] theorem State.raiseFatal_loaded (k : FatalKind) (w : Word) : (s.raiseFatal k w).loaded = s.loaded := rfl

/-! ### popSchedule -/

@[simp] theorem State.popSchedule_mem : (s.popSchedule).mem = s.mem := rfl
@[simp] theorem State.popSchedule_V : (s.popSchedule).V = s.V := rfl
@[simp] theorem State.popSchedule_I : (s.popSchedule).I = s.I := rfl
@[simp] theorem State.popSchedule_PC : (s.popSchedule).PC = s.PC := rfl
@[simp] theorem State.popSchedule_DT : (s.popSchedule).DT = s.DT := rfl
@[simp] theorem State.popSchedule_stack : (s.popSchedule).stack = s.stack := rfl
@[simp] theorem State.popSchedule_SP : (s.popSchedule).SP = s.SP := rfl
@[simp] theorem State.popSchedule_fb : (s.popSchedule).fb = s.fb := rfl
@[simp] theorem State.popSchedule_lastTick : (s.popSchedule).lastTick = s.lastTick := rfl
@[simp] theorem State.popSchedule_phase : (s.popSchedule).phase = s.phase := rfl
@[simp] theorem State.popSchedule_fault : (s.popSchedule).fault = s.fault := rfl
@[simp] theorem State.popSchedule_diag : (s.popSchedule).diag = s.diag := rfl
@[simp] theorem State.popSchedule_now : (s.popSchedule).now = s.now := rfl
@[simp] theorem State.popSchedule_rnd : (s.popSchedule).rnd = s.rnd := rfl
@[simp] theorem State.popSchedule_schedule : (s.popSchedule).schedule = s.schedule.tail := rfl
@[simp] theorem State.popSchedule_draws : (s.popSchedule).draws = s.draws := rfl
@[simp] theorem State.popSchedule_loaded : (s.popSchedule).loaded = s.loaded := rfl

/-! ### sample -/

@[simp] theorem State.sample_mem (inp : StepInput) : (s.sample inp).mem = s.mem := rfl
@[simp] theorem State.sample_V (inp : StepInput) : (s.sample inp).V = s.V := rfl
@[simp] theorem State.sample_I (inp : StepInput) : (s.sample inp).I = s.I := rfl
@[simp] theorem State.sample_PC (inp : StepInput) : (s.sample inp).PC = s.PC := rfl
@[simp] theorem State.sample_DT (inp : StepInput) : (s.sample inp).DT = s.DT := rfl
@[simp] theorem State.sample_stack (inp : StepInput) : (s.sample inp).stack = s.stack := rfl
@[simp] theorem State.sample_SP (inp : StepInput) : (s.sample inp).SP = s.SP := rfl
@[simp] theorem State.sample_fb (inp : StepInput) : (s.sample inp).fb = s.fb := rfl
@[simp] theorem State.sample_lastTick (inp : StepInput) : (s.sample inp).lastTick = s.lastTick := rfl
@[simp] theorem State.sample_phase (inp : StepInput) : (s.sample inp).phase = .running := rfl
@[simp] theorem State.sample_fault (inp : StepInput) : (s.sample inp).fault = s.fault := rfl
@[simp] theorem State.sample_diag (inp : StepInput) : (s.sample inp).diag = none := rfl
@[simp] theorem State.sample_now (inp : StepInput) : (s.sample inp).now = inp.now := rfl
@[simp] theorem State.sample_rnd (inp : StepInput) : (s.sample inp).rnd = inp.rnd := rfl
@[simp] theorem State.sample_schedule (inp : StepInput) : (s.sample inp).schedule = s.schedule := rfl
@[simp] theorem State.sample_draws (inp : StepInput) : (s.sample inp).draws = s.draws + 1 := rfl
@[simp] theorem State.sample_loaded (inp : StepInput) : (s.sample inp).loaded = s.loaded := rfl

/-! ### loadImage -/

@[simp] theorem State.loadImage_mem (image : List Byte) : (s.loadImage image).mem = s.mem.writeBytes Config.loadOffset (image.take Config.maxImage) := rfl
@[simp] theorem State.loadImage_V (image : List Byte) : (s.loadImage image).V = s.V := rfl
@[simp] theorem State.loadImage_I (image : List Byte) : (s.loadImage image).I = s.I := rfl
@[simp] theorem State.loadImage_PC (image : List Byte) : (s.loadImage image).PC = s.PC := rfl
@[simp] theorem State.loadImage_DT (image : List Byte) : (s.loadImage image).DT = s.DT := rfl
@[simp] theorem State.loadImage_stack (image : List Byte) : (s.loadImage image).stack = s.stack := rfl
@[simp] theorem State.loadImage_SP (image : List Byte) : (s.loadImage image).SP = s.SP := rfl
@[simp] theorem State.loadImage_fb (image : List Byte) : (s.loadImage image).fb = s.fb := rfl
@[simp] theorem State.loadImage_lastTick (image : List Byte) : (s.loadImage image).lastTick = s.lastTick := rfl
@[simp] theorem State.loadImage_phase (image : List Byte) : (s.loadImage image).phase = s.phase := rfl
@[simp] theorem State.loadImage_fault (image : List Byte) : (s.loadImage image).fault = s.fault := rfl
@[simp] theorem State.loadImage_diag (image : List Byte) : (s.loadImage image).diag = loadWarning image := rfl
@[simp] theorem State.loadImage_now (image : List Byte) : (s.loadImage image).now = s.now := rfl
@[simp] theorem State.loadImage_rnd (image : List Byte) : (s.loadImage image).rnd = s.rnd := rfl
@[simp] theorem State.loadImage_schedule (image : List Byte) : (s.loadImage image).schedule = s.schedule := rfl
@[simp] theorem State.loadImage_draws (image : List Byte) : (s.loadImage image).draws = s.draws := rfl
@[simp] theorem State.loadImage_loaded (image : List Byte) : (s.loadImage image).loaded = true := rfl

@[simp] theorem State.dropTop_SP : s.dropTop.SP.val = s.SP.val - 1 := rfl

/-! ### nextPC -/

@[simp] theorem State.nextPC_mem (o : Option Word) : (s.nextPC o).mem = s.mem := rfl
@[simp] theorem State.nextPC_V (o : Option Word) : (s.nextPC o).V = s.V := rfl
@[simp] theorem State.nextPC_I (o : Option Word) : (s.nextPC o).I = s.I := rfl
@[simp] theorem State.nextPC_DT (o : Option Word) : (s.nextPC o).DT = s.DT := rfl
@[simp] theorem State.nextPC_stack (o : Option Word) : (s.nextPC o).stack = s.stack := rfl
@[simp] theorem State.nextPC_SP (o : Option Word) : (s.nextPC o).SP = s.SP := rfl
@[simp] theorem State.nextPC_fb (o : Option Word) : (s.nextPC o).fb = s.fb := rfl
@[simp] theorem State.nextPC_lastTick (o : Option Word) : (s.nextPC o).lastTick = s.lastTick := rfl
@[simp] theorem State.nextPC_phase (o : Option Word) : (s.nextPC o).phase = s.phase := rfl
@[simp] theorem State.nextPC_fault (o : Option Word) : (s.nextPC o).fault = s.fault := rfl
@[simp] theorem State.nextPC_diag (o : Option Word) : (s.nextPC o).diag = s.diag := rfl
@[simp] theorem State.nextPC_now (o : Option Word) : (s.nextPC o).now = s.now := rfl
@[simp] theorem State.nextPC_rnd (o : Option Word) : (s.nextPC o).rnd = s.rnd := rfl
@[simp] theorem State.nextPC_schedule (o : Option Word) : (s.nextPC o).schedule = s.schedule := rfl
@[simp] theorem State.nextPC_draws (o : Option Word) : (s.nextPC o).draws = s.draws := rfl
@[simp] theorem State.nextPC_loaded (o : Option Word) : (s.nextPC o).loaded = s.loaded := rfl
@[simp] theorem State.nextPC_none_PC : (s.nextPC none).PC = s.PC + 2 := rfl
@[simp] theorem State.nextPC_some_PC (t : Word) : (s.nextPC (some t)).PC = t := rfl

theorem State.toNat_PC_add_two : (s.PC + 2).toNat = (s.PC.toNat + 2) % 65536 := BitVec.toNat_add s.PC 2
theorem State.toNat_PC_add_four : (s.PC + 4).toNat = (s.PC.toNat + 4) % 65536 := BitVec.toNat_add s.PC 4
theorem State.toNat_returnAddress : s.returnAddress.toNat = (s.PC.toNat + 2) % 65536 := s.toNat_PC_add_two
@[simp] theorem toNat_zextAddr (nnn : Addr) : (zextAddr nnn).toNat = nnn.toNat := by simp [zextAddr]; omega

/-! ### writeFlagged -/

@[simp] theorem State.writeFlagged_mem (x : Reg) (fl r : Byte) : (s.writeFlagged x fl r).mem = s.mem := rfl
@[simp] theorem State.writeFlagged_I (x : Reg) (fl r : Byte) : (s.writeFlagged x fl r).I = s.I := rfl
@[simp] theorem State.writeFlagged_PC (x : Reg) (fl r : Byte) : (s.writeFlagged x fl r).PC = s.PC := rfl
@[simp] theorem State.writeFlagged_DT (x : Reg) (fl r : Byte) : (s.writeFlagged x fl r).DT = s.DT := rfl
@[simp] theorem State.writeFlagged_stack (x : Reg) (fl r : Byte) : (s.writeFlagged x fl r).stack = s.stack := rfl
@[simp] theorem State.writeFlagged_SP (x : Reg) (fl r : Byte) : (s.writeFlagged x fl r).SP = s.SP := rfl
@[simp] theorem State.writeFlagged_fb (x : Reg) (fl r : Byte) : (s.writeFlagged x fl r).fb = s.fb := rfl
@[simp] theorem State.writeFlagged_lastTick (x : Reg) (fl r : Byte) : (s.writeFlagged x fl r).lastTick = s.lastTick := rfl
@[simp] theorem State.writeFlagged_phase (x : Reg) (fl r : Byte) : (s.writeFlagged x fl r).phase = s.phase := rfl
@[simp] theorem State.writeFlagged_fault (x : Reg) (fl r : Byte) : (s.writeFlagged x fl r).fault = s.fault := rfl
@[simp] theorem State.writeFlagged_diag (x : Reg) (fl r : Byte) : (s.writeFlagged x fl r).diag = s.diag := rfl
@[simp] theorem State.writeFlagged_now (x : Reg) (fl r : Byte) : (s.writeFlagged x fl r).now = s.now := rfl
@[simp] theorem State.writeFlagged_rnd (x : Reg) (fl r : Byte) : (s.writeFlagged x fl r).rnd = s.rnd := rfl
@[simp] theorem State.writeFlagged_schedule (x : Reg) (fl r : Byte) : (s.writeFlagged x fl r).schedule = s.schedule := rfl
@[simp] theorem State.writeFlagged_draws (x : Reg) (fl r : Byte) : (s.writeFlagged x fl r).draws = s.draws := rfl
@[simp] theorem State.writeFlagged_loaded (x : Reg) (fl r : Byte) : (s.writeFlagged x fl r).loaded = s.loaded := rfl

/-! ### tick -/

@[simp] theorem State.tick_mem : s.tick.mem = s.mem := by unfold State.tick; split <;> rfl
@[simp] theorem State.tick_V : s.tick.V = s.V := by unfold State.tick; split <;> rfl
@[simp] theorem State.tick_I : s.tick.I = s.I := by unfold State.tick; split <;> rfl
@[simp] theorem State.tick_PC : s.tick.PC = s.PC := by unfold State.tick; split <;> rfl
@[simp] theorem State.tick_stack : s.tick.stack = s.stack := by unfold State.tick; split <;> rfl
@[simp] theorem State.tick_SP : s.tick.SP = s.SP := by unfold State.tick; split <;> rfl
@[simp] theorem State.tick_fb : s.tick.fb = s.fb := by unfold State.tick; split <;> rfl
@[simp] theorem State.tick_phase : s.tick.phase = s.phase := by unfold State.tick; split <;> rfl
@[simp] theorem State.tick_fault : s.tick.fault = s.fault := by unfold State.tick; split <;> rfl
@[simp] theorem State.tick_diag : s.tick.diag = s.diag := by unfold State.tick; split <;> rfl
@[simp] theorem State.tick_now : s.tick.now = s.now := by unfold State.tick; split <;> rfl
@[simp] theorem State.tick_rnd : s.tick.rnd = s.rnd := by unfold State.tick; split <;> rfl
@[simp] theorem State.tick_schedule : s.tick.schedule = s.schedule := by unfold State.tick; split <;> rfl
@[simp] theorem State.tick_draws : s.tick.draws = s.draws := by unfold State.tick; split <;> rfl
@[simp] theorem State.tick_loaded : s.tick.loaded = s.loaded := by unfold State.tick; split <;> rfl

/-! ### Reading a general register after an update -/

@[simp] theorem State.readV_writeV_same (x : Reg) (v : Byte) : (s.writeV x v).readV x = v := by
  simp [State.readV]

theorem State.readV_writeV_other (x r : Reg) (v : Byte) (h : r ≠ x) : (s.writeV x v).readV r = s.readV r := by
  have : x.toNat ≠ r.toNat := fun e => h (BitVec.eq_of_toNat_eq e.symm)
  simp [State.readV, Vector.getElem_set_ne, this]

@[simp] theorem State.readV_nextPC (o : Option Word) (r : Reg) : (s.nextPC o).readV r = s.readV r := rfl
@[simp] theorem State.readV_setI (v : Word) (r : Reg) : (s.setI v).readV r = s.readV r := rfl
@[simp] theorem State.readV_setDT (v : Byte) (r : Reg) : (s.setDT v).readV r = s.readV r := rfl
@[simp] theorem State.readV_setFb (fb : Memory) (r : Reg) : (s.setFb fb).readV r = s.readV r := rfl
@[simp] theorem State.readV_warn (w : Warning) (r : Reg) : (s.warn w).readV r = s.readV r := rfl
@[simp] theorem State.readV_pushAt (v : Word) (h : s.SP.val < 16) (r : Reg) : (s.pushAt v h).readV r = s.readV r := rfl
@[simp] theorem State.readV_dropTop (r : Reg) : s.dropTop.readV r = s.readV r := rfl
@[simp] theorem State.readV_popSchedule (r : Reg) : s.popSchedule.readV r = s.readV r := rfl
@[simp] theorem State.readV_sample (inp : StepInput) (r : Reg) : (s.sample inp).readV r = s.readV r := rfl
@[simp] theorem State.readV_tick (r : Reg) : s.tick.readV r = s.readV r := by simp [State.readV]

/-- The result of a flag-writing operation is what its destination holds, VF included (R126). -/
@[simp] theorem State.readV_writeFlagged_dest (x : Reg) (fl r : Byte) : (s.writeFlagged x fl r).readV x = r := by
  simp [State.writeFlagged]

/-- The flag is what VF holds where the destination is another register (R126). -/
theorem State.readV_writeFlagged_flag (x : Reg) (fl r : Byte) (h : x ≠ VF) : (s.writeFlagged x fl r).readV VF = fl := by
  rw [State.writeFlagged, State.readV_writeV_other _ _ _ _ h.symm, State.readV_writeV_same]

theorem State.readV_writeFlagged_other (x r : Reg) (fl v : Byte) (hx : r ≠ x) (hf : r ≠ VF) :
    (s.writeFlagged x fl v).readV r = s.readV r := by
  rw [State.writeFlagged, State.readV_writeV_other _ _ _ _ hx, State.readV_writeV_other _ _ _ _ hf]

end Sys2Proof.Machine
end

