-- ==== Sys2Proof/Laws/Ops.lean ====
section
/-! SUPPORT. One lemma per shared operation, saying all it can do: the stack, the tick, the fetch, a step. -/

namespace Sys2Proof.Machine

variable (s : State)

/-! ### The stack -/

theorem State.push_of_room (v : Word) (h : s.SP.val < 16) : s.push v = some (s.pushAt v h) := by
  simp [State.push, h]

theorem State.push_of_full (v : Word) (h : s.SP.val = 16) : s.push v = none := by
  simp [State.push, h]

theorem State.pop_of_occupied (h : s.SP.val ≠ 0) : s.pop = some (s.top, s.dropTop) := by
  simp [State.pop, h]

theorem State.pop_of_empty (h : s.SP.val = 0) : s.pop = none := by
  simp [State.pop, h]

/-! ### The tick -/

/-- A decrement is due exactly when DT is not 0 and the period has elapsed, a clock that ran backwards included. -/
theorem State.tickDue_iff : s.TickDue s.now ↔ s.DT ≠ 0 ∧ Config.timerPeriod ≤ s.elapsed := by
  unfold State.TickDue State.elapsed
  simp only [Config.timerPeriod]
  split <;> constructor <;> intro h <;> exact ⟨h.1, by have := h.2; omega⟩

theorem State.tick_of_due (h : s.TickDue s.now) : s.tick = { s with DT := s.DT - 1, lastTick := s.now } := by
  unfold State.tick
  rw [if_pos (s.tickDue_iff.mp h)]

theorem State.tick_of_not_due (h : ¬ s.TickDue s.now) : s.tick = s := by
  unfold State.tick
  rw [if_neg (mt s.tickDue_iff.mpr h)]

/-! ### The start of a step -/

section Begun

@[simp] theorem State.begun_mem : s.begun.mem = s.mem := by simp [State.begun]
@[simp] theorem State.begun_V : s.begun.V = s.V := by simp [State.begun]
@[simp] theorem State.begun_I : s.begun.I = s.I := by simp [State.begun]
@[simp] theorem State.begun_PC : s.begun.PC = s.PC := by simp [State.begun]
@[simp] theorem State.begun_stack : s.begun.stack = s.stack := by simp [State.begun]
@[simp] theorem State.begun_SP : s.begun.SP = s.SP := by simp [State.begun]
@[simp] theorem State.begun_fb : s.begun.fb = s.fb := by simp [State.begun]
@[simp] theorem State.begun_phase : s.begun.phase = .running := by simp [State.begun]
@[simp] theorem State.begun_fault : s.begun.fault = s.fault := by simp [State.begun]
@[simp] theorem State.begun_diag : s.begun.diag = none := by simp [State.begun]
@[simp] theorem State.begun_now : s.begun.now = s.nextInput.now := by simp [State.begun]
@[simp] theorem State.begun_rnd : s.begun.rnd = s.nextInput.rnd := by simp [State.begun]
@[simp] theorem State.begun_schedule : s.begun.schedule = s.schedule.tail := by simp [State.begun]
@[simp] theorem State.begun_draws : s.begun.draws = s.draws + 1 := by simp [State.begun]
@[simp] theorem State.begun_loaded : s.begun.loaded = s.loaded := by simp [State.begun]
@[simp] theorem State.readV_begun (r : Reg) : s.begun.readV r = s.readV r := by simp [State.begun]
@[simp] theorem State.wordAtPC_begun : s.begun.wordAtPC = s.wordAtPC := by simp [State.wordAtPC]
@[simp] theorem State.top_begun : s.begun.top = s.top := by simp [State.top]

end Begun

/-! ### Fetch -/

theorem State.fetch_of_canFetch (h : s.CanFetch) : s.fetch = some s.wordAtPC := by
  unfold State.CanFetch at h
  simp only [State.fetch, memRead, State.wordAtPC]
  rw [if_pos (by omega), if_pos h]

theorem State.fetch_of_not_canFetch (h : ¬ s.CanFetch) : s.fetch = none := by
  unfold State.CanFetch at h
  simp only [State.fetch, memRead]
  rw [if_neg (c := s.PC.toNat + 1 < Config.memSize) h]
  split <;> simp_all

/-! ### A step -/

theorem step_of_halted (h : s.phase = .halted) : step s = .fault (.stepWhileHalted s.fault) := by
  simp [step, stepFromState, stepRequest, h]

theorem step_of_live (h : s.phase ≠ .halted) : step s = runFetched s.begun := by
  have h' : s.popSchedule.phase ≠ .halted := h
  unfold step stepFromState stepRequest
  split
  · next e => exact absurd e h'
  · rfl
  · rfl

theorem step_of_canFetch (h : s.phase ≠ .halted) (hf : s.CanFetch) : step s = exec (decode s.wordAtPC) s.begun := by
  have hb : s.begun.CanFetch := by simpa [State.CanFetch] using hf
  rw [step_of_live s h, runFetched, State.fetch_of_canFetch _ hb, State.wordAtPC_begun]

theorem step_of_not_canFetch (h : s.phase ≠ .halted) (hf : ¬ s.CanFetch) :
    step s = .next (s.begun.raiseFatal .fetchOutOfBounds 0) := by
  have hb : ¬ s.begun.CanFetch := by simpa [State.CanFetch] using hf
  rw [step_of_live s h, runFetched, State.fetch_of_not_canFetch _ hb]

/-- All a step that ends in a next state can do: run the decoded word, or fail to fetch one. -/
theorem step_cases {s t : State} (h : step s = .next t) :
    s.phase ≠ .halted ∧
      ((s.CanFetch ∧ exec (decode s.wordAtPC) s.begun = .next t) ∨
        (¬ s.CanFetch ∧ t = s.begun.raiseFatal .fetchOutOfBounds 0)) := by
  by_cases hp : s.phase = .halted
  · rw [step_of_halted s hp] at h
    cases h
  · refine ⟨hp, ?_⟩
    by_cases hf : s.CanFetch
    · exact .inl ⟨hf, step_of_canFetch s hp hf ▸ h⟩
    · rw [step_of_not_canFetch s hp hf] at h
      cases h
      exact .inr ⟨hf, rfl⟩

/-- A step request is the step of the state whose schedule begins with that input, so what is said of `step` is said of
the request. -/
theorem serve_step (inp : StepInput) : serve (.step inp) s = step { s with schedule := inp :: s.schedule } := rfl

/-! ### The instructions with more than one outcome -/

theorem execRet_of_occupied (h : s.SP.val ≠ 0) : execRet s = .next (s.dropTop.nextPC (some s.top)) := by
  simp [execRet, State.pop_of_occupied s h]

theorem execRet_of_empty (h : s.SP.val = 0) : execRet s = .next (s.raiseFatal .stackUnderflow 0x00EE) := by
  simp [execRet, State.pop_of_empty s h, encode]

theorem execCall_of_room (nnn : Addr) (h : s.SP.val < 16) :
    execCall nnn s = .next ((s.pushAt s.returnAddress h).nextPC (some (zextAddr nnn))) := by
  simp [execCall, State.push_of_room s _ h]

theorem execCall_of_full (nnn : Addr) (h : s.SP.val = 16) :
    execCall nnn s = .next (s.raiseFatal .stackOverflow (encode (.call nnn))) := by
  simp [execCall, State.push_of_full s _ h]

/-- The sprite check says what R161 says. -/
theorem State.spriteOutOfBounds_iff (n : Nat) :
    s.spriteOutOfBounds n = true ↔ 1 ≤ n ∧ 4096 ≤ s.I.toNat + n - 1 := by
  rw [State.spriteOutOfBounds, Bool.and_eq_true, decide_eq_true_eq, decide_eq_true_eq, State.rowAddress]
  exact and_congr_right fun h => by rw [Nat.add_sub_assoc h]

theorem execDrw_of_out (x y : Reg) (n : Nibble) (h : s.spriteOutOfBounds n.toNat = true) :
    execDrw x y n s = .next (s.raiseFatal .spriteReadOutOfBounds (encode (.drw x y n))) := by
  simp [execDrw, h]

theorem execDrw_of_in (x y : Reg) (n : Nibble) (h : s.spriteOutOfBounds n.toNat = false) :
    execDrw x y n s =
      .next (((s.setFb (drawSprite s x y n.toNat).1).writeV VF (collisionFlag (drawSprite s x y n.toNat).2)).nextPC none) := by
  simp [execDrw, h]

end Sys2Proof.Machine
end

