-- ==== Sys2Proof/Laws/Draw.lean ====
section
/-! SUPPORT. The draw: what one pixel does, what pixels with distinct cells do together (46_draw.md R152), and which
pixels a sprite is made of. -/

namespace Sys2Proof.Machine

/-- A canvas after a list of pixels, each a cell and its sprite bit. -/
def drawPixels (canvas : Memory × Bool) (ps : List (Nat × Bool)) : Memory × Bool :=
  ps.foldl (fun c p => drawPixel c p.1 p.2) canvas

/-- The pixels of one sprite row, in the order they are drawn. -/
def rowPixels (cx cy : Byte) (i : Nat) (row : Byte) : List (Nat × Bool) :=
  [7, 6, 5, 4, 3, 2, 1, 0].map fun j => (pixelCell cx cy i j, row.getLsbD j)

/-- The pixels of the `k` rows from row `i` on, in the order they are drawn. -/
def spritePixels (s : State) (cx cy : Byte) : Nat → Nat → List (Nat × Bool)
  | 0, _ => []
  | k + 1, i => rowPixels cx cy i (s.mem.read (s.rowAddress i)) ++ spritePixels s cx cy k (i + 1)

/-! ### One pixel, and pixels with distinct cells -/

theorem drawPixel_read (canvas : Memory × Bool) (cell k : Nat) (bit : Bool) :
    (drawPixel canvas cell bit).1.read k =
      if k = cell ∧ bit = true then canvas.1.read k ^^^ onByte else canvas.1.read k := by
  unfold drawPixel
  cases bit
  · simp
  · simp only [if_true, and_true, Memory.read_write]
    split
    · next h => rw [h]
    · rfl

theorem drawPixel_hit (canvas : Memory × Bool) (cell : Nat) (bit : Bool) :
    (drawPixel canvas cell bit).2 = (canvas.2 || (bit && canvas.1.read cell == onByte)) := by
  unfold drawPixel
  cases bit <;> simp

theorem drawPixel_wf {size : Nat} {canvas : Memory × Bool} (h : canvas.1.wf size = true) (cell : Nat) (bit : Bool)
    (hc : cell < size) : (drawPixel canvas cell bit).1.wf size = true := by
  unfold drawPixel
  split
  · exact Memory.wf_write h _ _ hc
  · exact h

theorem drawPixels_read (ps : List (Nat × Bool)) (canvas : Memory × Bool) (hd : (ps.map Prod.fst).Nodup) (k : Nat) :
    (drawPixels canvas ps).1.read k =
      if (k, true) ∈ ps then canvas.1.read k ^^^ onByte else canvas.1.read k := by
  induction ps generalizing canvas with
  | nil => simp [drawPixels]
  | cons p rest ih =>
    obtain ⟨cell, bit⟩ := p
    simp only [List.map_cons, List.nodup_cons] at hd
    have := ih (drawPixel canvas cell bit) hd.2
    simp only [drawPixels, List.foldl_cons] at this ⊢
    rw [this, drawPixel_read]
    by_cases hk : k = cell
    · subst hk
      have hn : (k, true) ∉ rest := fun hm => hd.1 (List.mem_map_of_mem (f := Prod.fst) hm)
      cases bit <;> simp [hn]
    · simp [hk]

theorem drawPixels_hit (ps : List (Nat × Bool)) (canvas : Memory × Bool) (hd : (ps.map Prod.fst).Nodup) :
    (drawPixels canvas ps).2 = true ↔ canvas.2 = true ∨ ∃ k, (k, true) ∈ ps ∧ canvas.1.read k = onByte := by
  induction ps generalizing canvas with
  | nil => simp [drawPixels]
  | cons p rest ih =>
    obtain ⟨cell, bit⟩ := p
    simp only [List.map_cons, List.nodup_cons] at hd
    have := ih (drawPixel canvas cell bit) hd.2
    simp only [drawPixels, List.foldl_cons] at this ⊢
    rw [this, drawPixel_hit]
    have hne : ∀ k, (k, true) ∈ rest → k ≠ cell :=
      fun k hm e => hd.1 (List.mem_map.mpr ⟨(k, true), hm, e⟩)
    constructor
    · rintro (h | ⟨k, hm, hr⟩)
      · simp only [Bool.or_eq_true, Bool.and_eq_true, beq_iff_eq] at h
        rcases h with h | ⟨hb, hr⟩
        · exact .inl h
        · exact .inr ⟨cell, by simp [hb], hr⟩
      · rw [drawPixel_read, if_neg (by simp [hne k hm])] at hr
        exact .inr ⟨k, by simp [hm], hr⟩
    · rintro (h | ⟨k, hm, hr⟩)
      · exact .inl (by simp [h])
      · rcases List.mem_cons.mp hm with e | hm
        · cases e
          exact .inl (by simp [hr])
        · refine .inr ⟨k, hm, ?_⟩
          rw [drawPixel_read, if_neg (by simp [hne k hm])]
          exact hr

theorem drawPixels_wf {size : Nat} (ps : List (Nat × Bool)) {canvas : Memory × Bool} (h : canvas.1.wf size = true)
    (hc : ∀ p ∈ ps, p.1 < size) : (drawPixels canvas ps).1.wf size = true := by
  induction ps generalizing canvas with
  | nil => exact h
  | cons p rest ih =>
    exact ih (drawPixel_wf h p.1 p.2 (hc p (by simp))) fun q hq => hc q (by simp [hq])

/-! ### A sprite is its pixels -/

theorem drawRow_eq (cx cy : Byte) (canvas : Memory × Bool) (i : Nat) (row : Byte) :
    drawRow cx cy canvas i row = drawPixels canvas (rowPixels cx cy i row) := rfl

theorem drawRows_eq (s : State) (cx cy : Byte) (k i : Nat) (canvas : Memory × Bool) :
    drawRows s cx cy k i canvas = drawPixels canvas (spritePixels s cx cy k i) := by
  induction k generalizing i canvas with
  | zero => rfl
  | succ k ih => rw [drawRows, ih, drawRow_eq, spritePixels, drawPixels, drawPixels, drawPixels, List.foldl_append]

theorem mem_rowPixels (cx cy : Byte) (i : Nat) (row : Byte) (p : Nat × Bool) :
    p ∈ rowPixels cx cy i row ↔ ∃ j, j < 8 ∧ p = (pixelCell cx cy i j, row.getLsbD j) := by
  simp only [rowPixels, List.mem_map]
  constructor
  · rintro ⟨j, hj, rfl⟩
    refine ⟨j, ?_, rfl⟩
    simp only [List.mem_cons, List.not_mem_nil, or_false] at hj
    omega
  · rintro ⟨j, hj, rfl⟩
    refine ⟨j, ?_, rfl⟩
    simp only [List.mem_cons, List.not_mem_nil, or_false]
    omega

/-- The pixels of rows `i` .. `i + k - 1`. -/
theorem mem_spritePixels (s : State) (cx cy : Byte) (k i : Nat) (p : Nat × Bool) :
    p ∈ spritePixels s cx cy k i ↔
      ∃ r j, i ≤ r ∧ r < i + k ∧ j < 8 ∧ p = (pixelCell cx cy r j, (s.mem.read (s.rowAddress r)).getLsbD j) := by
  induction k generalizing i with
  | zero =>
    simp only [spritePixels, List.not_mem_nil, false_iff, not_exists]
    intro r j h
    omega
  | succ k ih =>
    rw [spritePixels, List.mem_append, mem_rowPixels, ih]
    constructor
    · rintro (⟨j, hj, rfl⟩ | ⟨r, j, h1, h2, hj, rfl⟩)
      · exact ⟨i, j, by omega, by omega, hj, rfl⟩
      · exact ⟨r, j, by omega, by omega, hj, rfl⟩
    · rintro ⟨r, j, h1, h2, hj, rfl⟩
      by_cases hr : r = i
      · subst hr
        exact .inl ⟨j, hj, rfl⟩
      · exact .inr ⟨r, j, by omega, by omega, hj, rfl⟩

theorem pixelCell_lt (cx cy : Byte) (i j : Nat) : pixelCell cx cy i j < Config.fbCells := by
  simp only [pixelCell, cellIndex, pixelColumn, pixelRow, Config.fbWidth, Config.fbHeight, Config.fbCells]
  omega

/-- Within one sprite of at most 32 rows no two pixels share a cell (R152). -/
theorem pixelCell_inj {cx cy : Byte} {i j i' j' : Nat} (hj : j < 8) (hj' : j' < 8) (hi : i < 32) (hi' : i' < 32)
    (h : pixelCell cx cy i j = pixelCell cx cy i' j') : i = i' ∧ j = j' := by
  simp only [pixelCell, cellIndex, pixelColumn, pixelRow, Config.fbWidth, Config.fbHeight] at h
  have hrow : (cy.toNat + i) % 32 = (cy.toNat + i') % 32 := by omega
  have hcol : (cx.toNat + (7 - j)) % 64 = (cx.toNat + (7 - j')) % 64 := by omega
  constructor <;> omega

theorem rowPixels_nodup (cx cy : Byte) (i : Nat) (row : Byte) (hi : i < 32) :
    ((rowPixels cx cy i row).map Prod.fst).Nodup := by
  rw [rowPixels, List.map_map]
  refine List.Nodup.map_on ?_ (by decide)
  intro j hj j' hj' h
  simp only [List.mem_cons, List.not_mem_nil, or_false] at hj hj'
  exact (pixelCell_inj (by omega) (by omega) hi hi h).2

/-- The cells of a sprite are distinct (R152). -/
theorem spritePixels_nodup (s : State) (cx cy : Byte) (k i : Nat) (h : i + k ≤ 32) :
    ((spritePixels s cx cy k i).map Prod.fst).Nodup := by
  induction k generalizing i with
  | zero => simp [spritePixels]
  | succ k ih =>
    rw [spritePixels, List.map_append, List.nodup_append]
    refine ⟨rowPixels_nodup cx cy i _ (by omega), ih (i + 1) (by omega), ?_⟩
    intro a ha b hb hab
    subst hab
    obtain ⟨p, hp, rfl⟩ := List.mem_map.mp ha
    obtain ⟨q, hq, hpq⟩ := List.mem_map.mp hb
    obtain ⟨j, hj, rfl⟩ := (mem_rowPixels ..).mp hp
    obtain ⟨r, j', h1, h2, hj', rfl⟩ := (mem_spritePixels ..).mp hq
    have := (pixelCell_inj hj' hj (by omega) (by omega) hpq).1
    omega

/-- The framebuffer after a sprite, cell by cell (R148). -/
theorem drawSprite_read (s : State) (x y : Reg) (n k : Nat) (hn : n ≤ 32) :
    (drawSprite s x y n).1.read k =
      if (k, true) ∈ spritePixels s (s.readV x) (s.readV y) n 0 then s.fb.read k ^^^ onByte else s.fb.read k := by
  rw [drawSprite, drawRows_eq, drawPixels_read _ _ (spritePixels_nodup _ _ _ _ _ (by omega))]

/-- A sprite collides when one of its set bits meets a cell that was on (R149). -/
theorem drawSprite_hit (s : State) (x y : Reg) (n : Nat) (hn : n ≤ 32) :
    (drawSprite s x y n).2 = true ↔
      ∃ k, (k, true) ∈ spritePixels s (s.readV x) (s.readV y) n 0 ∧ s.fb.read k = onByte := by
  rw [drawSprite, drawRows_eq, drawPixels_hit _ _ (spritePixels_nodup _ _ _ _ _ (by omega))]
  simp

/-- A sprite keeps the framebuffer canonical. -/
theorem drawSprite_wf (s : State) (x y : Reg) (n : Nat) (h : s.fb.wf Config.fbCells = true) :
    (drawSprite s x y n).1.wf Config.fbCells = true := by
  rw [drawSprite, drawRows_eq]
  refine drawPixels_wf _ h fun p hp => ?_
  obtain ⟨r, j, -, -, -, rfl⟩ := (mem_spritePixels ..).mp hp
  exact pixelCell_lt ..

end Sys2Proof.Machine
end

