-- ==== Sys2Proof/Laws/PerInstr.lean ====
section
/-! SUPPORT. Laws stated of each instruction as syntax. InOwnRow: the word of an instruction matches the row of the
opcode map that is its own (30_encoding.md R81, R88). -/

namespace Sys2Proof.Laws

/-- The instruction's word matches the row of the opcode map that `rowNumber` gives it; an unknown word has no row. -/
def InOwnRow.Statement (i : Instr) : Prop :=
  ∀ (k : Nat) (row : OpcodeRow), Machine.rowNumber i = some k → opcodeMap[k]? = some row → row.holds (encode i) = true

/-- A row with mask 0xF000 holds of a word of its family. -/
theorem holds_family {w p : Word} (h : w.toNat / 4096 * 4096 = p.toNat) : OpcodeRow.holds ⟨p, 0xF000⟩ w = true :=
  beq_iff_eq.mpr (BitVec.eq_of_toNat_eq ((toNat_and_F000 w).trans h))

/-- A row with mask 0xF00F holds of a word of its family and sub-opcode `n`. -/
theorem holds_family_n {w p : Word} (h : w.toNat / 4096 * 4096 + w.toNat % 16 = p.toNat) :
    OpcodeRow.holds ⟨p, 0xF00F⟩ w = true :=
  beq_iff_eq.mpr (BitVec.eq_of_toNat_eq ((toNat_and_F00F w).trans h))

/-- A row with mask 0xF0FF holds of a word of its family and sub-opcode `kk`. -/
theorem holds_family_kk {w p : Word} (h : w.toNat / 4096 * 4096 + w.toNat % 256 = p.toNat) :
    OpcodeRow.holds ⟨p, 0xF0FF⟩ w = true :=
  beq_iff_eq.mpr (BitVec.eq_of_toNat_eq ((toNat_and_F0FF w).trans h))

theorem InOwnRow.cls : InOwnRow.Statement .cls := by
  intro k row hk hr
  cases hk
  cases hr
  decide

theorem InOwnRow.ret : InOwnRow.Statement .ret := by
  intro k row hk hr
  cases hk
  cases hr
  decide

theorem InOwnRow.jp (nnn : Addr) : InOwnRow.Statement (.jp nnn) := by
  intro k row hk hr
  cases hk
  cases hr
  refine holds_family ?_
  rw [encode, toNat_encodeNNN]
  simp only [BitVec.ofNat_eq_ofNat, BitVec.toNat_ofNat]
  omega

theorem InOwnRow.call (nnn : Addr) : InOwnRow.Statement (.call nnn) := by
  intro k row hk hr
  cases hk
  cases hr
  refine holds_family ?_
  rw [encode, toNat_encodeNNN]
  simp only [BitVec.ofNat_eq_ofNat, BitVec.toNat_ofNat]
  omega

theorem InOwnRow.se (x : Reg) (kk : Byte) : InOwnRow.Statement (.se x kk) := by
  intro k row hk hr
  cases hk
  cases hr
  refine holds_family ?_
  rw [encode, toNat_encodeXKK]
  simp only [BitVec.ofNat_eq_ofNat, BitVec.toNat_ofNat]
  omega

theorem InOwnRow.sne (x : Reg) (kk : Byte) : InOwnRow.Statement (.sne x kk) := by
  intro k row hk hr
  cases hk
  cases hr
  refine holds_family ?_
  rw [encode, toNat_encodeXKK]
  simp only [BitVec.ofNat_eq_ofNat, BitVec.toNat_ofNat]
  omega

theorem InOwnRow.ldImm (x : Reg) (kk : Byte) : InOwnRow.Statement (.ldImm x kk) := by
  intro k row hk hr
  cases hk
  cases hr
  refine holds_family ?_
  rw [encode, toNat_encodeXKK]
  simp only [BitVec.ofNat_eq_ofNat, BitVec.toNat_ofNat]
  omega

theorem InOwnRow.addImm (x : Reg) (kk : Byte) : InOwnRow.Statement (.addImm x kk) := by
  intro k row hk hr
  cases hk
  cases hr
  refine holds_family ?_
  rw [encode, toNat_encodeXKK]
  simp only [BitVec.ofNat_eq_ofNat, BitVec.toNat_ofNat]
  omega

theorem InOwnRow.ldReg (x : Reg) (y : Reg) : InOwnRow.Statement (.ldReg x y) := by
  intro k row hk hr
  cases hk
  cases hr
  refine holds_family_n ?_
  rw [encode, toNat_encodeXYN]
  simp only [BitVec.ofNat_eq_ofNat, BitVec.toNat_ofNat]
  omega

theorem InOwnRow.orReg (x : Reg) (y : Reg) : InOwnRow.Statement (.orReg x y) := by
  intro k row hk hr
  cases hk
  cases hr
  refine holds_family_n ?_
  rw [encode, toNat_encodeXYN]
  simp only [BitVec.ofNat_eq_ofNat, BitVec.toNat_ofNat]
  omega

theorem InOwnRow.andReg (x : Reg) (y : Reg) : InOwnRow.Statement (.andReg x y) := by
  intro k row hk hr
  cases hk
  cases hr
  refine holds_family_n ?_
  rw [encode, toNat_encodeXYN]
  simp only [BitVec.ofNat_eq_ofNat, BitVec.toNat_ofNat]
  omega

theorem InOwnRow.xorReg (x : Reg) (y : Reg) : InOwnRow.Statement (.xorReg x y) := by
  intro k row hk hr
  cases hk
  cases hr
  refine holds_family_n ?_
  rw [encode, toNat_encodeXYN]
  simp only [BitVec.ofNat_eq_ofNat, BitVec.toNat_ofNat]
  omega

theorem InOwnRow.addReg (x : Reg) (y : Reg) : InOwnRow.Statement (.addReg x y) := by
  intro k row hk hr
  cases hk
  cases hr
  refine holds_family_n ?_
  rw [encode, toNat_encodeXYN]
  simp only [BitVec.ofNat_eq_ofNat, BitVec.toNat_ofNat]
  omega

theorem InOwnRow.sub (x : Reg) (y : Reg) : InOwnRow.Statement (.sub x y) := by
  intro k row hk hr
  cases hk
  cases hr
  refine holds_family_n ?_
  rw [encode, toNat_encodeXYN]
  simp only [BitVec.ofNat_eq_ofNat, BitVec.toNat_ofNat]
  omega

theorem InOwnRow.shr (x : Reg) (y : Reg) : InOwnRow.Statement (.shr x y) := by
  intro k row hk hr
  cases hk
  cases hr
  refine holds_family_n ?_
  rw [encode, toNat_encodeXYN]
  simp only [BitVec.ofNat_eq_ofNat, BitVec.toNat_ofNat]
  omega

theorem InOwnRow.subn (x : Reg) (y : Reg) : InOwnRow.Statement (.subn x y) := by
  intro k row hk hr
  cases hk
  cases hr
  refine holds_family_n ?_
  rw [encode, toNat_encodeXYN]
  simp only [BitVec.ofNat_eq_ofNat, BitVec.toNat_ofNat]
  omega

theorem InOwnRow.shl (x : Reg) (y : Reg) : InOwnRow.Statement (.shl x y) := by
  intro k row hk hr
  cases hk
  cases hr
  refine holds_family_n ?_
  rw [encode, toNat_encodeXYN]
  simp only [BitVec.ofNat_eq_ofNat, BitVec.toNat_ofNat]
  omega

theorem InOwnRow.ldI (nnn : Addr) : InOwnRow.Statement (.ldI nnn) := by
  intro k row hk hr
  cases hk
  cases hr
  refine holds_family ?_
  rw [encode, toNat_encodeNNN]
  simp only [BitVec.ofNat_eq_ofNat, BitVec.toNat_ofNat]
  omega

theorem InOwnRow.rnd (x : Reg) (kk : Byte) : InOwnRow.Statement (.rnd x kk) := by
  intro k row hk hr
  cases hk
  cases hr
  refine holds_family ?_
  rw [encode, toNat_encodeXKK]
  simp only [BitVec.ofNat_eq_ofNat, BitVec.toNat_ofNat]
  omega

theorem InOwnRow.drw (x : Reg) (y : Reg) (n : Nibble) : InOwnRow.Statement (.drw x y n) := by
  intro k row hk hr
  cases hk
  cases hr
  refine holds_family ?_
  rw [encode, toNat_encodeXYN]
  simp only [BitVec.ofNat_eq_ofNat, BitVec.toNat_ofNat]
  omega

theorem InOwnRow.ldVxDT (x : Reg) : InOwnRow.Statement (.ldVxDT x) := by
  intro k row hk hr
  cases hk
  cases hr
  refine holds_family_kk ?_
  rw [encode, toNat_encodeXKK]
  simp only [BitVec.ofNat_eq_ofNat, BitVec.toNat_ofNat]
  omega

theorem InOwnRow.ldDTVx (x : Reg) : InOwnRow.Statement (.ldDTVx x) := by
  intro k row hk hr
  cases hk
  cases hr
  refine holds_family_kk ?_
  rw [encode, toNat_encodeXKK]
  simp only [BitVec.ofNat_eq_ofNat, BitVec.toNat_ofNat]
  omega

theorem InOwnRow.unknown (w : Word) : InOwnRow.Statement (.unknown w) := by
  intro k row hk
  cases hk

end Sys2Proof.Laws
end

