-- ==== Sys2Proof/Tests/Slice0.lean ====
section
/-! SUPPORT. Tests from the vectors of spec/95_test_vectors.md (named by their numbers), the smoke test of WellFormed, and
the witnesses: for each statement with hypotheses, a concrete state and operands that meet them. -/

namespace Sys2Proof.Tests

open Sys2Proof.Machine

/-- A next state of which the check holds. -/
def nextHolds (o : Result) (check : State → Bool) : Bool :=
  match o with
  | .next t => check t
  | .fault _ => false
  | .refused _ => false

/-- One step with the inputs `now` and `rnd` on the word `w` placed at PC. -/
def stepOn (s : State) (w : Nat) (now : Nat := 0) (rnd : Byte := 0) : Result :=
  step { s.withFetchWord 16 w with schedule := [⟨now, rnd⟩] }

/-- The reset state with some registers set, as (number, value). -/
def withV (vs : List (Reg × Byte)) : State := vs.foldl (fun s p => s.writeV p.1 p.2) State.reset

/-- The cells of the framebuffer that are not 0x00. -/
def cellsOn (t : State) : List Nat := t.fb.map Prod.fst

/-- The state of E7: a sprite byte at 0x300 and I pointing to it. -/
def withSprite (s : State) (bytes : List Byte) : State := { s with I := 0x300, mem := s.mem.writeBytes 0x300 bytes }

/-! ### Well-formedness (R82, R89) -/

theorem test_wf_unknown_word : (Instr.unknown 0x5120).wf = true := by decide

/-- The one check refuses an unknown term whose word is an instruction's. -/
theorem test_wf_refuses_known_word : (Instr.unknown 0x8014).wf = false := by decide

theorem test_wf_refuses_cls_word : (Instr.unknown 0x00E0).wf = false := by decide

/-! ### Decoding: words written out from R71 and R88, one per constructor -/

theorem test_decode_cls : decode 0b0000000011100000 = .cls := by decide
theorem test_decode_ret : decode 0b0000000011101110 = .ret := by decide
theorem test_decode_jp : decode 0b0001101010111100 = .jp 0xABC := by decide
theorem test_decode_call : decode 0b0010010000000000 = .call 0x400 := by decide
theorem test_decode_se : decode 0b0011001101000010 = .se 0x3 0x42 := by decide
theorem test_decode_sne : decode 0b0100001101000010 = .sne 0x3 0x42 := by decide
theorem test_decode_ldImm : decode 0b0110101001111111 = .ldImm 0xA 0x7F := by decide
theorem test_decode_addImm : decode 0b0111000011111111 = .addImm 0x0 0xFF := by decide
theorem test_decode_ldReg : decode 0b1000000100100000 = .ldReg 0x1 0x2 := by decide
theorem test_decode_orReg : decode 0b1000000100100001 = .orReg 0x1 0x2 := by decide
theorem test_decode_andReg : decode 0b1000000100100010 = .andReg 0x1 0x2 := by decide
theorem test_decode_xorReg : decode 0b1000000100100011 = .xorReg 0x1 0x2 := by decide
theorem test_decode_addReg : decode 0b1000111100010100 = .addReg 0xF 0x1 := by decide
theorem test_decode_sub : decode 0b1000000100100101 = .sub 0x1 0x2 := by decide
theorem test_decode_shr : decode 0b1000000100100110 = .shr 0x1 0x2 := by decide
theorem test_decode_subn : decode 0b1000000100100111 = .subn 0x1 0x2 := by decide
theorem test_decode_shl : decode 0b1000000100101110 = .shl 0x1 0x2 := by decide
theorem test_decode_ldI : decode 0b1010000100100011 = .ldI 0x123 := by decide
theorem test_decode_rnd : decode 0b1100001100001111 = .rnd 0x3 0x0F := by decide
theorem test_decode_drw : decode 0b1101111100010010 = .drw 0xF 0x1 0x2 := by decide
theorem test_decode_ldVxDT : decode 0b1111001100000111 = .ldVxDT 0x3 := by decide
theorem test_decode_ldDTVx : decode 0b1111001100010101 = .ldDTVx 0x3 := by decide

/-- Families 5, 9, B, E, and sub-opcode misses of families 0, 8 and F (R82). -/
theorem test_decode_unknown :
    [0x5120, 0x9120, 0xB123, 0xE19E, 0x0000, 0x0123, 0x8018, 0x801F, 0xF10A, 0xF11E].all
      (fun w => decode (BitVec.ofNat 16 w) == .unknown (BitVec.ofNat 16 w)) = true := by decide

/-- A byte list is read most significant byte first, two bytes at a time (R53, R70). -/
theorem test_decode_bytes :
    (match decodeBytes [0x1A, 0xBC, 0x00] with
      | .ok (i, rest) => i == .jp 0xABC && rest == [0x00]
      | .error _ => false) = true := by decide

theorem test_decode_truncated :
    (match decodeBytes [0x1A] with
      | .ok _ => false
      | .error e => e == .truncated) = true := by decide

theorem test_decode_table_word : decodeTableWord 16 0xD012 = some (.drw 0x0 0x1 0x2) := by decide

/-! ### One step of each instruction -/

/-- V0.1 -/
theorem test_cls :
    nextHolds (stepOn { withV [(15, 1)] with fb := [(0, 0xFF), (5, 0xFF), (2047, 0xFF)] } 0x00E0)
      (fun t => cellsOn t == [] && t.readV 15 == 1 && t.PC == 0x202) = true := by decide

/-- V0.2 -/
theorem test_ret :
    nextHolds (stepOn { State.reset with PC := 0x300, SP := 1, stack := State.reset.stack.set 0 0x206 } 0x00EE)
      (fun t => t.PC == 0x206 && t.SP == 0) = true := by decide

/-- V0.3, E10 -/
theorem test_ret_underflow :
    nextHolds (stepOn State.reset 0x00EE)
      (fun t => t.phase == .halted && t.fault == some ⟨.stackUnderflow, 0x200, 0x00EE⟩) = true := by decide

/-- V1.1 -/
theorem test_jp : nextHolds (stepOn State.reset 0x1ABC) (fun t => t.PC == 0xABC && t.phase == .running) = true := by decide

/-- V2.2: the sixteenth entry is legal. -/
theorem test_call_sixteenth :
    nextHolds (stepOn { State.reset with SP := 15 } 0x2400)
      (fun t => t.PC == 0x400 && t.SP == 16 && t.stack[15] == 0x202) = true := by decide

/-- V2.3 -/
theorem test_call_overflow :
    nextHolds (stepOn { State.reset with SP := 16 } 0x2400)
      (fun t => faultOutput t == (1, 0x200, 0x2400) && stepResult t == .fatal ⟨.stackOverflow, 0x200, 0x2400⟩) = true := by
  decide

/-- V3.1 -/
theorem test_se_equal : nextHolds (stepOn (withV [(3, 0x42)]) 0x3342) (fun t => t.PC == 0x204) = true := by decide

/-- V3.2 -/
theorem test_se_unequal : nextHolds (stepOn (withV [(3, 0x41)]) 0x3342) (fun t => t.PC == 0x202) = true := by decide

/-- V4.1 -/
theorem test_sne_equal : nextHolds (stepOn (withV [(3, 0x42)]) 0x4342) (fun t => t.PC == 0x202) = true := by decide

/-- V4.2 -/
theorem test_sne_unequal : nextHolds (stepOn (withV [(3, 0x41)]) 0x4342) (fun t => t.PC == 0x204) = true := by decide

/-- V6.1 -/
theorem test_ldImm : nextHolds (stepOn State.reset 0x6A7F) (fun t => t.readV 10 == 0x7F && t.PC == 0x202) = true := by decide

/-- V7.1 -/
theorem test_addImm_no_flag :
    nextHolds (stepOn (withV [(0, 0x01), (15, 0x5A)]) 0x70FF) (fun t => t.readV 0 == 0 && t.readV 15 == 0x5A) = true := by
  decide

/-- V8.0a -/
theorem test_ldReg : nextHolds (stepOn (withV [(2, 0x99)]) 0x8120) (fun t => t.readV 1 == 0x99) = true := by decide

/-- V8.1a -/
theorem test_or :
    nextHolds (stepOn (withV [(0, 0xF0), (1, 0x0F), (15, 0x77)]) 0x8011)
      (fun t => t.readV 0 == 0xFF && t.readV 15 == 0x77) = true := by decide

/-- R129's example -/
theorem test_and : nextHolds (stepOn (withV [(0, 0xF0), (1, 0x3C)]) 0x8012) (fun t => t.readV 0 == 0x30) = true := by decide

/-- R130's example -/
theorem test_xor : nextHolds (stepOn (withV [(0, 0xF0), (1, 0x3C)]) 0x8013) (fun t => t.readV 0 == 0xCC) = true := by decide

/-- V8.4d: with x = 15 the result overwrites the carry. -/
theorem test_add_into_vf :
    nextHolds (stepOn (withV [(15, 0xFF), (1, 0x01)]) 0x8F14) (fun t => t.readV 15 == 0x00) = true := by decide

/-- V8.4e: with y = 15 the old VF is read. -/
theorem test_add_reads_old_vf :
    nextHolds (stepOn (withV [(0, 0x10), (15, 0x20)]) 0x80F4) (fun t => t.readV 0 == 0x30 && t.readV 15 == 0) = true := by
  decide

/-- V8.5c: strictly greater. -/
theorem test_sub_equal :
    nextHolds (stepOn (withV [(0, 7), (1, 7), (15, 1)]) 0x8015) (fun t => t.readV 0 == 0 && t.readV 15 == 0) = true := by
  decide

/-- E6 -/
theorem test_sub_wraps :
    nextHolds (stepOn (withV [(0, 0x05), (1, 0x0A)]) 0x8015) (fun t => t.readV 0 == 0xFB && t.readV 15 == 0) = true := by
  decide

/-- V8.6a: `y` is ignored. -/
theorem test_shr :
    nextHolds (stepOn (withV [(0, 0x03), (1, 0xAA)]) 0x8016)
      (fun t => t.readV 0 == 0x01 && t.readV 15 == 1 && t.readV 1 == 0xAA) = true := by decide

/-- V8.7a -/
theorem test_subn :
    nextHolds (stepOn (withV [(0, 0x05), (1, 0x0A)]) 0x8017) (fun t => t.readV 0 == 0x05 && t.readV 15 == 1) = true := by
  decide

/-- V8.Ea -/
theorem test_shl :
    nextHolds (stepOn (withV [(0, 0x81)]) 0x801E) (fun t => t.readV 0 == 0x02 && t.readV 15 == 1) = true := by decide

/-- VA.2 -/
theorem test_ldI : nextHolds (stepOn State.reset 0xAFFF) (fun t => t.I == 0x0FFF) = true := by decide

/-- VC.1 -/
theorem test_rnd : nextHolds (stepOn State.reset 0xC30F 0 0xAB) (fun t => t.readV 3 == 0x0B) = true := by decide

/-- E8: horizontal wrap. -/
theorem test_drw_wraps :
    nextHolds (stepOn (withSprite (withV [(0, 0x3F)]) [0xFF]) 0xD011)
      (fun t => cellsOn t == [0, 1, 2, 3, 4, 5, 6, 63] && t.readV 15 == 0) = true := by decide

/-- VD.8: the collision in the second row is not downgraded. -/
theorem test_drw_collides :
    nextHolds (stepOn { withSprite State.reset [0x80, 0x80] with fb := [(64, 0xFF)] } 0xD012)
      (fun t => cellsOn t == [0] && t.readV 15 == 1) = true := by decide

/-- VF.4: the timer is read after the step's own tick. -/
theorem test_ldVxDT_after_tick :
    nextHolds (stepOn { State.reset with DT := 5 } 0xF307 16)
      (fun t => t.DT == 4 && t.lastTick == 16 && t.readV 3 == 4) = true := by decide

/-- VF.6: the tick runs before the timer is set. -/
theorem test_ldDTVx_after_tick :
    nextHolds (stepOn { withV [(3, 9)] with DT := 3 } 0xF315 40) (fun t => t.DT == 9 && t.lastTick == 40) = true := by decide

/-- VU.1 -/
theorem test_unknown_warns :
    nextHolds (stepOn (withV [(1, 1), (15, 0x33)]) 0x5120)
      (fun t => stepResult t == .done (some (.unknownInstruction 0x5120 0x200)) && t.PC == 0x202 && t.readV 15 == 0x33) =
      true := by decide

/-- VF.7: a clock that went back. -/
theorem test_tick_clock_back :
    nextHolds (stepOn { State.reset with DT := 5, lastTick := 100 } 0xF307 50)
      (fun t => t.DT == 5 && t.lastTick == 100) = true := by decide

/-- VP.2 -/
theorem test_fetch_out_of_bounds :
    nextHolds (step { State.reset with PC := 0xFFF }) (fun t => faultOutput t == (3, 0xFFF, 0)) = true := by decide

/-- VP.1, VP.3: the last fetch in bounds, and an odd PC. -/
theorem test_fetch_last_and_odd :
    (nextHolds (stepOn { State.reset with PC := 0xFFE } 0x6001) (fun t => t.readV 0 == 1 && t.PC == 0x1000) &&
      nextHolds (stepOn { State.reset with PC := 0x201 } 0x6001) (fun t => t.readV 0 == 1 && t.PC == 0x203)) = true := by
  decide

/-- VP.4 -/
theorem test_step_while_halted :
    (match step { State.reset with phase := .halted } with
      | .fault r => r == .stepWhileHalted none
      | _ => false) = true := by decide

/-- E2: of 3600 bytes the 3584th is the last one kept, nothing stands below 0x200, and the load warns. -/
theorem test_load_truncates (image : List Byte) (h : image.length = 3600) :
    (State.reset.loadImage image).mem.read 0xFFF = image[3583] ∧ (State.reset.loadImage image).mem.read 0x1FF = 0x00 ∧
      (State.reset.loadImage image).diag = some (.loadTruncated 3600) := by
  simp [Memory.read_writeBytes, loadWarning, h, State.reset, Memory.read, Memory.unlisted, Config.loadOffset,
    Config.maxImage]

/-! ### Witnesses: concrete states and operands that meet the hypotheses of the statements -/

/-- LoadCopiesImagePrefix, LoadWarnsOnlyOnTruncation: the reset state; images of 3584 and 3585 bytes, the last one kept
and the first one dropped. -/
theorem witness_load_accepted :
    State.reset.phase = .ready ∧ State.reset.loaded = false ∧
      (List.replicate 3584 (0 : Byte)).length ≤ 3584 ∧ 3584 < (List.replicate 3585 (0 : Byte)).length ∧
      3583 < (List.replicate 3584 (0 : Byte)).length ∧ 512 + min (List.replicate 3585 (0 : Byte)).length 3584 ≤ 4096 := by
  simp only [List.length_replicate]
  decide

/-- LoadRefusedUnlessReady: a Running block, and a Ready block with an image. -/
theorem witness_load_refused :
    ({ State.reset with phase := .running } : State).phase ≠ .ready ∧
      ({ State.reset with loaded := true } : State).phase = .ready ∧
      ({ State.reset with loaded := true } : State).loaded = true := by decide

/-- OnlyResetLeavesHalted: a Halted block, and the one request that has a next state. -/
theorem witness_halted :
    ({ State.reset with phase := .halted } : State).phase = .halted ∧
      ∃ t, serve .reset { State.reset with phase := .halted } = .next t := ⟨rfl, _, rfl⟩

/-- StepRunsDecodedInstruction: the last PC that can be fetched from. -/
theorem witness_can_fetch :
    ({ State.reset with PC := 4094 } : State).phase ≠ .halted ∧ ({ State.reset with PC := 4094 } : State).CanFetch := by
  refine ⟨by decide, ?_⟩
  show (4095 : Nat) < 4096
  decide

/-- StepBeginsWithTick: exactly 16 ms elapsed, and 15. -/
theorem witness_tick_due :
    ({ State.reset with DT := 1, schedule := [⟨16, 0⟩] } : State).TickDue 16 ∧
      ¬ ({ State.reset with DT := 1, schedule := [⟨15, 0⟩] } : State).TickDue 15 := by
  refine ⟨⟨by decide, by decide⟩, fun h => ?_⟩
  exact absurd h.2 (by decide)

/-- ScheduledInputsAreTheStepInputs. -/
theorem witness_scheduled :
    ({ State.reset with schedule := [⟨16, 0xAB⟩] } : State).schedule = (⟨16, 0xAB⟩ : StepInput) :: [] := rfl

/-- FetchBeyondMemoryHalts: the first PC past the last fetch. -/
theorem witness_fetch_beyond :
    ({ State.reset with PC := 4095 } : State).phase ≠ .halted ∧ 4095 ≤ ({ State.reset with PC := 4095 } : State).PC.toNat := by
  decide

/-- StepHaltsExactlyOnListedFaults: a state for each kind of fault, at its boundary, and one with none. -/
theorem witness_fatal_ahead :
    ({ State.reset with PC := 4095 } : State).fatalAhead = some ⟨.fetchOutOfBounds, 4095, 0⟩ ∧
      ({ State.reset with SP := 16 }.withFetchWord 16 0x2400).fatalAhead = some ⟨.stackOverflow, 0x200, 0x2400⟩ ∧
      (State.reset.withFetchWord 16 0x00EE).fatalAhead = some ⟨.stackUnderflow, 0x200, 0x00EE⟩ ∧
      ({ State.reset with I := 0xFFF }.withFetchWord 16 0xD012).fatalAhead =
        some ⟨.spriteReadOutOfBounds, 0x200, 0xD012⟩ ∧
      ({ State.reset with I := 0xFFF }.withFetchWord 16 0xD011).fatalAhead = none := by decide

/-- The statements about a step that completes: an unknown word. -/
theorem witness_completed_unknown :
    ∃ t, step State.reset = .next t ∧ t.Completed ∧ isUnknownWord State.reset.wordAtPC = true :=
  ⟨_, rfl, rfl, by decide⟩

/-- … a known word that is not CLS, Dxyn, Annn, Fx15, CALL or RET, with register 1 neither its destination nor a flag. -/
theorem witness_completed_known :
    ∃ t, step (State.reset.withFetchWord 16 0x6A7F) = .next t ∧ t.Completed ∧
      decode (State.reset.withFetchWord 16 0x6A7F).wordAtPC = .ldImm 0xA 0x7F ∧
      isUnknownWord (State.reset.withFetchWord 16 0x6A7F).wordAtPC = false ∧
      destReg (.ldImm 0xA 0x7F) ≠ some 1 ∧ writesFlag (.ldImm 0xA 0x7F) = false :=
  ⟨_, rfl, rfl, by decide, by decide, by decide, rfl⟩

/-- … Fx15, Annn, CALL and RET, for the clauses that name them. -/
theorem witness_completed_named :
    (∃ t, step (State.reset.withFetchWord 16 0xF315) = .next t ∧ t.Completed ∧
      decode (State.reset.withFetchWord 16 0xF315).wordAtPC = .ldDTVx 3) ∧
    (∃ t, step (State.reset.withFetchWord 16 0xAFFF) = .next t ∧ t.Completed ∧
      decode (State.reset.withFetchWord 16 0xAFFF).wordAtPC = .ldI 0xFFF) ∧
    (∃ t, step ({ State.reset with SP := 15 }.withFetchWord 16 0x2400) = .next t ∧ t.Completed ∧
      decode ({ State.reset with SP := 15 }.withFetchWord 16 0x2400).wordAtPC = .call 0x400) ∧
    (∃ t, step ({ State.reset with SP := 1 }.withFetchWord 16 0x00EE) = .next t ∧ t.Completed ∧
      decode ({ State.reset with SP := 1 }.withFetchWord 16 0x00EE).wordAtPC = .ret) :=
  ⟨⟨_, rfl, rfl, by decide⟩, ⟨_, rfl, rfl, by decide⟩, ⟨_, rfl, rfl, by decide⟩, ⟨_, rfl, rfl, by decide⟩⟩

/-- StepHaltsExactlyOnListedFaults, the result of a step that completes: no fault ahead and none recorded. -/
theorem witness_no_fault_recorded : State.reset.phase ≠ .halted ∧ State.reset.fatalAhead = none ∧ State.reset.fault = none := by
  decide

/-- ScreenChangesOnlyByClsAndDrw, what the host reads: the last column and the last row. -/
theorem witness_screen_corner : (63 : Nat) < 64 ∧ (31 : Nat) < 32 := by decide

/-- NoStepWritesMemory: each request has a next state. -/
theorem witness_requests_served :
    (∃ t, serve .reset State.reset = .next t) ∧ (∃ t, serve (.load [0x12]) State.reset = .next t) ∧
      (∃ t, serve (.step ⟨0, 0⟩) State.reset = .next t) := ⟨⟨_, rfl⟩, ⟨_, rfl⟩, ⟨_, rfl⟩⟩

/-- InputsReadOnlyWhereStated, the clause on `now`: Cxkk has a next state. -/
theorem witness_rnd_now : ∃ t, exec (.rnd 3 0x0F) State.reset = .next t ∧ t.phase ≠ .halted := ⟨_, rfl, by decide⟩

/-- InputsReadOnlyWhereStated, the clause on `rnd`. -/
theorem witness_not_rnd :
    (∀ x kk, Instr.cls ≠ .rnd x kk) ∧ ∃ t, exec .cls State.reset = .next t ∧ t.phase ≠ .halted :=
  ⟨fun _ _ => Instr.noConfusion, _, rfl, by decide⟩

/-- RetPopsIntoPc, RetOnEmptyStackHalts, CallPushesReturnAddress, CallThenRetResumesAfterCall, CallOnFullStackHalts: the
depths where the clauses meet. -/
theorem witness_stack_depths :
    ({ State.reset with SP := 1 } : State).SP.val ≠ 0 ∧ State.reset.SP.val = 0 ∧
      ({ State.reset with SP := 15 } : State).SP.val < 16 ∧ ({ State.reset with SP := 16 } : State).SP.val = 16 := by
  decide

/-- SeSkipsWhenEqual, SneSkipsWhenNotEqual: both clauses. -/
theorem witness_skip :
    (State.reset.readV 3).toNat = (0x00 : Byte).toNat ∧ (State.reset.readV 3).toNat ≠ (0x01 : Byte).toNat := by decide

/-- The flag-writing instructions: a destination other than VF, and sums and differences where the clauses meet. -/
theorem witness_flag_operands :
    (0 : Reg) ≠ 15 ∧ ¬ (0xFF < (0x80 : Byte).toNat + (0x7F : Byte).toNat) ∧
      0xFF < (0x80 : Byte).toNat + (0x80 : Byte).toNat ∧ ¬ ((0x07 : Byte).toNat > (0x07 : Byte).toNat) ∧
      (0x08 : Byte).toNat > (0x07 : Byte).toNat := by decide

/-- DrwXorsCoveredCells: one row at the last address; the cell it covers at column 0, and one it does not at column 1. -/
theorem witness_draw_in_memory :
    let s : State := { State.reset with I := 0xFFF, mem := [(0xFFF, 0x80)] }
    SpriteInMemory s 1 ∧ SpriteCovers s 0 1 1 0 0 ∧ ¬ SpriteCovers s 0 1 1 1 0 := by
  refine ⟨fun i hi => ?_, ⟨0, 7, by decide⟩, ?_⟩
  · have : i = 0 := by
      have : i < 1 := hi
      omega
    subst this
    decide
  · rintro ⟨i, j, hi, hj, hb, hc, -⟩
    have hi0 : i = 0 := by
      have : i < 1 := hi
      omega
    subst hi0
    revert hb hc
    have : j = 0 ∨ j = 1 ∨ j = 2 ∨ j = 3 ∨ j = 4 ∨ j = 5 ∨ j = 6 ∨ j = 7 := by omega
    rcases this with rfl | rfl | rfl | rfl | rfl | rfl | rfl | rfl <;> decide

/-- DrwXorsCoveredCells, DrwTwiceRestoresScreen: a covered cell that is on, one that is off, and operands that are not VF. -/
theorem witness_draw_collides :
    ({ State.reset with fb := [(0, 0xFF)] } : State).fb.read (0 * 64 + 0) = 0xFF ∧
      State.reset.fb.read (0 * 64 + 0) = 0x00 ∧ (0 : Reg) ≠ 15 ∧ (1 : Reg) ≠ 15 := by decide

/-- DrwBeyondMemoryHalts: two rows from the last address. -/
theorem witness_draw_beyond :
    1 ≤ (2 : Nibble).toNat ∧ 4096 ≤ ({ State.reset with I := 0xFFF } : State).I.toNat + (2 : Nibble).toNat - 1 := by decide

/-- DrwXorsCoveredCells, the clause on the fault: the same two rows. -/
theorem witness_draw_not_in_memory : ¬ SpriteInMemory { State.reset with I := 0xFFF } 2 := fun h => absurd (h 1 (by decide)) (by decide)

/-- DecodeOfEncode, DecodeFollowsOpcodeMap: a well-formed instruction, and a row of the map that a word matches. -/
theorem witness_encoding :
    (Instr.unknown 0x0000).wf = true ∧ opcodeMap[12]? = some ⟨0x8004, 0xF00F⟩ ∧
      (0x8014 : Word) &&& 0xF00F = 0x8004 ∧ rowNumber (decode 0x8014) = some 12 := by decide

/-- StepKeepsInvariant, RequestsKeepInvariant, StepKeepsClockInvariant: the reset state with a schedule meets both
invariants, and it steps. -/
theorem witness_invariants :
    let s : State := { State.reset with schedule := [⟨0, 0⟩, ⟨16, 0⟩] }
    s.Inv ∧ s.ClockInv ∧ ∃ t, step s = .next t ∧ t.Completed := by
  refine ⟨⟨rfl, rfl, by simp [State.reset], fun _ => ⟨by decide, by decide, ?_, fun _ => .inl rfl⟩⟩,
    ⟨by decide, by decide, by decide, trivial⟩, _, rfl, rfl⟩
  intro k h hk
  exact absurd hk (by simp [State.reset])

/-- DeadStackSlotsAreUnobservable: two states that differ in slot 1 above a depth of 1, and the first one answers a step,
a load and a reset. -/
theorem witness_dead_slots :
    let s : State := { State.reset with SP := 1 }
    let t : State := { State.reset with SP := 1, stack := State.reset.stack.set 1 0x206 }
    SameButDeadSlots s t ∧ s ≠ t ∧ (∃ s', serve (.step ⟨16, 0xAB⟩) s = .next s' ∧ s'.phase ≠ .halted) ∧
      (∃ s', serve (.load [0x12]) s = .next s') ∧ ∃ s', serve .reset s = .next s' := by
  refine ⟨⟨?_, rfl⟩, by decide, ⟨_, rfl, by decide⟩, ⟨_, rfl⟩, _, rfl⟩
  intro k h hk
  have : k = 0 := by
    have : k < 1 := hk
    omega
  subst this
  rfl

/-- DeadStackSlotsAreUnobservable, the halting clause: a step that halts. -/
theorem witness_dead_slots_halt :
    ∃ s', serve (.step ⟨0, 0⟩) { State.reset with PC := 4095 } = .next s' ∧ s'.phase = .halted := ⟨_, rfl, rfl⟩

/-- CanonicalStoresAreDetermined. -/
theorem witness_canonical : Memory.wf 4096 [(0, 1), (4095, 0xFF)] = true ∧ Memory.wf 4096 [(4096, 1)] = false := by decide

end Sys2Proof.Tests
end

section
/-! SUPPORT. The reset state field by field, and what the host's requests reset and load answer (10_state.md R42, R45,
R46). -/

namespace Sys2Proof.Machine

/-! ### The reset state -/

@[simp] theorem Memory.read_nil (a : Nat) : Memory.read [] a = 0x00 := rfl

@[simp] theorem State.reset_mem : State.reset.mem = [] := rfl
@[simp] theorem State.reset_V : State.reset.V = Vector.replicate 16 0x00 := rfl
@[simp] theorem State.reset_I : State.reset.I = 0x0000 := rfl
@[simp] theorem State.reset_PC : State.reset.PC = 0x0200 := rfl
@[simp] theorem State.reset_DT : State.reset.DT = 0x00 := rfl
@[simp] theorem State.reset_stack : State.reset.stack = Vector.replicate 16 0x0000 := rfl
@[simp] theorem State.reset_SP : State.reset.SP = 0 := rfl
@[simp] theorem State.reset_fb : State.reset.fb = [] := rfl
@[simp] theorem State.reset_lastTick : State.reset.lastTick = 0 := rfl
@[simp] theorem State.reset_phase : State.reset.phase = .ready := rfl
@[simp] theorem State.reset_fault : State.reset.fault = none := rfl
@[simp] theorem State.reset_diag : State.reset.diag = none := rfl

@[simp] theorem State.readV_reset (r : Reg) : State.reset.readV r = 0x00 := by
  simp [State.readV]

/-- Without a fault the host reads 0 in all three outputs (R36, R42). -/
theorem faultOutput_of_no_fault {s : State} (h : s.fault = none) : faultOutput s = (0, 0, 0) := by
  simp [faultOutput, h]

/-! ### The requests reset and load -/

theorem serve_reset (s : State) : serve .reset s = .next s.resetInput := rfl

theorem serve_load (image : List Byte) (s : State) : serve (.load image) s = loadRequest image s := rfl

variable {s : State} (image : List Byte)

/-- The one case in which a load is accepted: Ready, with no image loaded since reset. -/
theorem loadRequest_of_ready (hp : s.phase = .ready) (hl : s.loaded = false) :
    loadRequest image s = .next (s.loadImage image) := by
  simp [loadRequest, hp, hl]

theorem loadRequest_of_loaded (hp : s.phase = .ready) (hl : s.loaded = true) :
    loadRequest image s = .refused .loadTwice := by
  simp [loadRequest, hp, hl]

theorem loadRequest_of_not_ready (hp : s.phase ≠ .ready) : loadRequest image s = .refused .loadNotReady := by
  cases h : s.phase with
  | ready => exact absurd h hp
  | running => simp [loadRequest, h]
  | halted => simp [loadRequest, h]

end Sys2Proof.Machine
end

section
/-! PROOFS. The statements on reset and on the refused load. -/

namespace Sys2Proof.Machine

/-- Settles O1: every piece of state by its field lemma; memory and the framebuffer are stores with no entry. -/
theorem resetLeavesStatedValues : Obligations.ResetLeavesStatedValues :=
  ⟨Memory.read_nil, State.readV_reset, State.reset_I, State.reset_PC, State.reset_DT, congrArg Fin.val State.reset_SP,
    fun k h => by simp, Memory.read_nil, State.reset_lastTick, State.reset_phase, State.reset_fault,
    faultOutput_of_no_fault State.reset_fault, State.reset_diag⟩

/-- Settles O3: the request does not look at the phase, so one answer serves Ready, Running and Halted. -/
theorem resetRequestRestoresResetState : Obligations.ResetRequestRestoresResetState := serve_reset

/-- Settles O6: the two refusing cases of the load. -/
theorem loadRefusedUnlessReady : Obligations.LoadRefusedUnlessReady := by
  intro image s
  rw [serve_load]
  exact ⟨loadRequest_of_not_ready image, loadRequest_of_loaded image⟩

end Sys2Proof.Machine
end

section
/-! SUPPORT. What an accepted load leaves in memory and as its warning (20_memory.md R68, R69). -/

namespace Sys2Proof.Machine

variable {s : State} (image : List Byte)

/-- Ready and with no image loaded since reset, the host's load answers the state of the load operation. -/
theorem serve_load_of_ready (hp : s.phase = .ready) (hl : s.loaded = false) :
    serve (.load image) s = .next (s.loadImage image) :=
  (serve_load image s).trans (loadRequest_of_ready image hp hl)

/-! ### Memory after the load -/

theorem State.loadImage_read_image {k : Nat} (hk : k < image.length) (hmax : k < 3584) :
    (s.loadImage image).mem.read (512 + k) = image[k] := by
  have hcopied : 512 ≤ 512 + k ∧ 512 + k - 512 < (image.take 3584).length := by
    rw [List.length_take]
    omega
  simp only [State.loadImage_mem, Config.loadOffset_eq, Config.maxImage_eq]
  rw [Memory.read_writeBytes, dif_pos hcopied]
  simp

theorem State.loadImage_read_outside {a : Nat} (ha : a < 512 ∨ 512 + min image.length 3584 ≤ a) :
    (s.loadImage image).mem.read a = s.mem.read a := by
  have hfree : ¬(512 ≤ a ∧ a - 512 < (image.take 3584).length) := by
    rw [List.length_take]
    omega
  simp only [State.loadImage_mem, Config.loadOffset_eq, Config.maxImage_eq]
  rw [Memory.read_writeBytes, dif_neg hfree]

/-! ### The warning of the load -/

theorem loadWarning_of_long (h : 3584 < image.length) : loadWarning image = some (.loadTruncated image.length) :=
  if_pos h

theorem loadWarning_of_fits (h : image.length ≤ 3584) : loadWarning image = none :=
  if_neg (Nat.not_lt.mpr h)

end Sys2Proof.Machine
end

section
/-! PROOFS. The statements on the accepted load. -/

namespace Sys2Proof.Machine

/-- Settles O4: memory by the two read lemmas of the load; the frame holds because the load writes three fields only. -/
theorem loadCopiesImagePrefix : Obligations.LoadCopiesImagePrefix := by
  intro image s hready hempty
  refine ⟨s.loadImage image, serve_load_of_ready image hready hempty, ?copied, ?untouched, ?frame⟩
  case copied => exact fun k hk hmax => State.loadImage_read_image image hk hmax
  case untouched => exact fun a ha => State.loadImage_read_outside image ha
  case frame => rfl

/-- Settles O5: the load's warning on each side of the bound. -/
theorem loadWarnsOnlyOnTruncation : Obligations.LoadWarnsOnlyOnTruncation := fun image s hready hempty =>
  ⟨s.loadImage image, serve_load_of_ready image hready hempty, loadWarning_of_long image, loadWarning_of_fits image⟩

end Sys2Proof.Machine
end

section
/-! SUPPORT. What a step that completes has done: the fatal outcomes are out, so each instruction has one next state
left (40_step.md R97, R104). -/

namespace Sys2Proof.Machine

variable {s t : State}

theorem State.not_completed_raiseFatal (k : FatalKind) (w : Word) : ¬ (s.raiseFatal k w).Completed := by
  simp [State.Completed]

/-- A step that completes has fetched its word and is the meaning of that word's instruction. -/
theorem exec_of_step_completed (h : step s = .next t) (hc : t.Completed) :
    s.CanFetch ∧ exec (decode s.wordAtPC) s.begun = .next t := by
  obtain ⟨-, hrun | ⟨-, rfl⟩⟩ := step_cases h
  · exact hrun
  · exact absurd hc (State.not_completed_raiseFatal _ _)

theorem execRet_completed (h : execRet s = .next t) (hc : t.Completed) :
    s.SP.val ≠ 0 ∧ t = s.dropTop.nextPC (some s.top) := by
  by_cases hsp : s.SP.val = 0
  · cases (execRet_of_empty s hsp).symm.trans h
    exact absurd hc (State.not_completed_raiseFatal _ _)
  · cases (execRet_of_occupied s hsp).symm.trans h
    exact ⟨hsp, rfl⟩

theorem execCall_completed {nnn : Addr} (h : execCall nnn s = .next t) (hc : t.Completed) :
    ∃ hroom : s.SP.val < 16, t = (s.pushAt s.returnAddress hroom).nextPC (some (zextAddr nnn)) := by
  by_cases hroom : s.SP.val < 16
  · cases (execCall_of_room s nnn hroom).symm.trans h
    exact ⟨hroom, rfl⟩
  · have hfull : s.SP.val = 16 := Nat.le_antisymm (Nat.le_of_lt_succ s.SP.isLt) (Nat.le_of_not_lt hroom)
    cases (execCall_of_full s nnn hfull).symm.trans h
    exact absurd hc (State.not_completed_raiseFatal _ _)

theorem execDrw_completed {x y : Reg} {n : Nibble} (h : execDrw x y n s = .next t) (hc : t.Completed) :
    s.spriteOutOfBounds n.toNat = false ∧
      t = ((s.setFb (drawSprite s x y n.toNat).1).writeV VF
        (collisionFlag (drawSprite s x y n.toNat).2)).nextPC none := by
  cases hout : s.spriteOutOfBounds n.toNat with
  | true =>
    cases (execDrw_of_out s x y n hout).symm.trans h
    exact absurd hc (State.not_completed_raiseFatal _ _)
  | false =>
    cases (execDrw_of_in s x y n hout).symm.trans h
    exact ⟨rfl, rfl⟩

/-! ### The next PC -/

theorem skipWhen_PC {c : Bool} (h : skipWhen c s = .next t) : t.PC = if c then s.PC + 4 else s.PC + 2 := by
  cases h
  cases c <;> rfl

/-- The tick and the sampling of the inputs leave everything the table of R24 reads. -/
@[simp] theorem State.pcAfter_begun (i : Instr) : s.begun.pcAfter i = s.pcAfter i := by
  cases i <;> simp [State.pcAfter]

/-- R95: the handlers with a target of their own, and default advancement for every other instruction. -/
theorem exec_PC {i : Instr} (h : exec i s = .next t) (hc : t.Completed) : t.PC = s.pcAfter i := by
  cases i with
  | ret =>
    obtain ⟨-, rfl⟩ := execRet_completed h hc
    rfl
  | jp nnn =>
    cases h
    rfl
  | call nnn =>
    obtain ⟨_, rfl⟩ := execCall_completed h hc
    rfl
  | se x kk => simpa [State.pcAfter] using skipWhen_PC h
  | sne x kk => simpa [State.pcAfter] using skipWhen_PC h
  | drw x y n =>
    obtain ⟨-, rfl⟩ := execDrw_completed h hc
    rfl
  | _ =>
    cases h
    rfl

/-! ### Requests while Halted -/

theorem serve_step_of_halted (inp : StepInput) (h : s.phase = .halted) :
    serve (.step inp) s = .fault (.stepWhileHalted s.fault) :=
  (serve_step s inp).trans (step_of_halted _ h)

theorem serve_load_of_halted (image : List Byte) (h : s.phase = .halted) :
    serve (.load image) s = .refused .loadNotReady :=
  (serve_load image s).trans (loadRequest_of_not_ready image (by simp [h]))

end Sys2Proof.Machine
end

section
/-! PROOFS. The statements on the next PC and on the Halted block. -/

namespace Sys2Proof.Machine

/-- Settles O14: the step is the instruction run in the begun state, and the PC rule reads nothing the beginning of the
step writes. -/
theorem stepAdvancesPcByTable : Obligations.StepAdvancesPcByTable := by
  intro s t hstep hc
  obtain ⟨-, hexec⟩ := exec_of_step_completed hstep hc
  calc t.PC = s.begun.pcAfter (decode s.wordAtPC) := exec_PC hexec hc
    _ = s.pcAfter (decode s.wordAtPC) := State.pcAfter_begun _

/-- Settles O7: by the request; a step request faults and a load is refused, so reset is left. -/
theorem onlyResetLeavesHalted : Obligations.OnlyResetLeavesHalted := by
  intro s hhalt
  refine ⟨step_of_halted s hhalt, fun req t hserve => ?_⟩
  cases req with
  | reset => rfl
  | load image => cases (serve_load_of_halted image hhalt).symm.trans hserve
  | step inp => cases (serve_step_of_halted inp hhalt).symm.trans hserve

end Sys2Proof.Machine
end

section
/-! SUPPORT. The frame relations from equal fields, and the one answer of CLS (00_scope.md R16, 41_family0.md R105). -/

namespace Sys2Proof.Machine

variable {s t : State}

/-! ### Frames from equal fields -/

theorem SameV.of_V_eq {regs : List Reg} (h : t.V = s.V) : SameV regs s t := fun r _ => by
  simp only [State.readV, h]

theorem SameMem.of_mem_eq (h : t.mem = s.mem) : SameMem s t := fun a => congrArg (Memory.read · a) h

theorem SameStack.of_stack_eq (hSP : t.SP = s.SP) (hstack : t.stack = s.stack) : SameStack s t :=
  ⟨hSP, fun k _ _ => by simp only [hstack]⟩

/-! ### CLS -/

theorem exec_cls (s : State) : exec .cls s = .next ((s.setFb Memory.clearScreen).nextPC none) := rfl

end Sys2Proof.Machine
end

section
/-! PROOFS. The statement on CLS. -/

namespace Sys2Proof.Machine

/-- Settles O22: CLS replaces the framebuffer by the clear one and advances PC; no other field is written. -/
theorem clsTurnsEveryCellOff : Obligations.ClsTurnsEveryCellOff := by
  intro s
  refine ⟨(s.setFb Memory.clearScreen).nextPC none, exec_cls s, ?cells, State.nextPC_none_PC _, ?registers, rfl,
    ?timer, ?stack, ?memory, ?status, rfl, ?inputs⟩
  case cells => exact Memory.read_clearScreen
  case registers => exact .of_V_eq rfl
  case timer => exact ⟨rfl, rfl⟩
  case stack => exact .of_stack_eq rfl rfl
  case memory => exact .of_mem_eq rfl
  case status => exact ⟨rfl, rfl⟩
  case inputs => exact ⟨rfl, rfl, rfl, rfl, rfl⟩

end Sys2Proof.Machine
end

section
/-! SUPPORT. PC alone: what moving it leaves unchanged, and the one answer of JP and of a skip (42_jump_call_skip.md R110,
R112, R113). -/

namespace Sys2Proof.Machine

/-! ### The frame of nextPC -/

theorem OnlyRegisters.refl (regs : List Reg) (s : State) : OnlyRegisters regs s s where
  regsOther := .of_V_eq rfl
  index := rfl
  timer := ⟨rfl, rfl⟩
  stack := .of_stack_eq rfl rfl
  screen := fun _ => rfl
  memory := .of_mem_eq rfl
  status := ⟨rfl, rfl⟩
  warning := rfl
  inputs := ⟨rfl, rfl, rfl, rfl, rfl⟩

/-- PC is outside the frame, so an instruction may set it last. -/
theorem OnlyRegisters.nextPC {regs : List Reg} {s t : State} (h : OnlyRegisters regs s t) (target : Option CodeAddr) :
    OnlyRegisters regs s (t.nextPC target) := { h with }

/-! ### Jump and skip -/

theorem exec_jp (nnn : Addr) (s : State) : exec (.jp nnn) s = .next (s.nextPC (some (zextAddr nnn))) := rfl

theorem exec_se (x : Reg) (kk : Byte) (s : State) : exec (.se x kk) s = skipWhen (s.readV x == kk) s := rfl

theorem exec_sne (x : Reg) (kk : Byte) (s : State) : exec (.sne x kk) s = skipWhen (s.readV x != kk) s := rfl

/-- All a skip does: PC by its condition, and nothing else. -/
theorem skipWhen_spec (c : Bool) (s : State) : ∃ t, skipWhen c s = .next t ∧
    (c = true → t.PC.toNat = (s.PC.toNat + 4) % 65536) ∧ (c = false → t.PC.toNat = (s.PC.toNat + 2) % 65536) ∧
    OnlyRegisters [] s t := by
  refine ⟨_, rfl, ?taken, ?notTaken, (OnlyRegisters.refl [] s).nextPC _⟩
  case taken =>
    rintro rfl
    exact State.toNat_PC_add_four s
  case notTaken =>
    rintro rfl
    exact State.toNat_PC_add_two s

end Sys2Proof.Machine
end

section
/-! PROOFS. The statements on JP, SE and SNE. -/

namespace Sys2Proof.Machine

/-- Settles O25: PC is the zero-extended address, with no advance after it. -/
theorem jpSetsPcExactly : Obligations.JpSetsPcExactly := fun nnn s =>
  ⟨s.nextPC (some (zextAddr nnn)), exec_jp nnn s, toNat_zextAddr nnn, (OnlyRegisters.refl [] s).nextPC _⟩

/-- Settles O29: the skip on equality; two bytes are equal when their numbers are. -/
theorem seSkipsWhenEqual : Obligations.SeSkipsWhenEqual := by
  intro x kk s
  obtain ⟨t, hskip, htaken, hnotTaken, hframe⟩ := skipWhen_spec (s.readV x == kk) s
  refine ⟨t, (exec_se x kk s).trans hskip, fun heq => htaken ?_, fun hne => hnotTaken ?_, hframe⟩
  · exact beq_iff_eq.mpr (BitVec.toNat_inj.mp heq)
  · exact beq_eq_false_iff_ne.mpr (BitVec.toNat_ne_iff_ne.mp hne)

/-- Settles O30: the skip on inequality; two bytes differ when their numbers do. -/
theorem sneSkipsWhenNotEqual : Obligations.SneSkipsWhenNotEqual := by
  intro x kk s
  obtain ⟨t, hskip, htaken, hnotTaken, hframe⟩ := skipWhen_spec (s.readV x != kk) s
  refine ⟨t, (exec_sne x kk s).trans hskip, fun hne => htaken ?_, fun heq => hnotTaken ?_, hframe⟩
  · exact bne_iff_ne.mpr (BitVec.toNat_ne_iff_ne.mp hne)
  · exact bne_eq_false_iff_eq.mpr (BitVec.toNat_inj.mp heq)

end Sys2Proof.Machine
end

section
/-! SUPPORT. The write of a general register: what it leaves unchanged, and the one answer of the immediate load and add
(43_load_add_immediate.md R120, R121). -/

namespace Sys2Proof.Machine

/-! ### The frame of writeV -/

/-- A register that the frame already leaves open may be written again, so several writes share one frame. -/
theorem OnlyRegisters.writeV {regs : List Reg} {s t : State} (h : OnlyRegisters regs s t) {x : Reg} (hx : x ∈ regs)
    (v : Byte) : OnlyRegisters regs s (t.writeV x v) :=
  { h with
    regsOther := fun r hr =>
      have hne : r ≠ x := (ne_of_mem_of_not_mem hx hr).symm
      (State.readV_writeV_other t x r v hne).trans (h.regsOther r hr) }

/-- The frame of an instruction that writes one register and advances PC. -/
theorem OnlyRegisters.writeV_nextPC (s : State) (x : Reg) (v : Byte) :
    OnlyRegisters [x] s ((s.writeV x v).nextPC none) :=
  ((OnlyRegisters.refl [x] s).writeV (List.mem_singleton_self x) v).nextPC none

/-! ### Load and add immediate -/

theorem exec_ldImm (x : Reg) (kk : Byte) (s : State) : exec (.ldImm x kk) s = .next ((s.writeV x kk).nextPC none) := rfl

theorem exec_addImm (x : Reg) (kk : Byte) (s : State) :
    exec (.addImm x kk) s = .next ((s.writeV x (s.readV x + kk)).nextPC none) := rfl

end Sys2Proof.Machine
end

section
/-! PROOFS. The statements on LD Vx, kk and ADD Vx, kk. -/

namespace Sys2Proof.Machine

/-- Settles O31: the destination reads back what was written, and one write with the PC's advance is the whole change. -/
theorem ldImmLoadsKk : Obligations.LdImmLoadsKk := by
  intro x kk s
  refine ⟨(s.writeV x kk).nextPC none, exec_ldImm x kk s, ?value, State.nextPC_none_PC _, .writeV_nextPC s x kk⟩
  case value => exact State.readV_writeV_same s x kk

/-- Settles O32: the byte sum wraps modulo 256, and the frame leaves VF alone where it is not the destination. -/
theorem addImmWrapsWithoutFlag : Obligations.AddImmWrapsWithoutFlag := by
  intro x kk s
  refine ⟨(s.writeV x (s.readV x + kk)).nextPC none, exec_addImm x kk s, ?sum, State.nextPC_none_PC _,
    .writeV_nextPC s x (s.readV x + kk)⟩
  case sum =>
    rw [State.readV_nextPC, State.readV_writeV_same]
    exact BitVec.toNat_add (s.readV x) kk

end Sys2Proof.Machine
end

section
/-! SUPPORT. The family 8 operations: their one answer, the two write shapes they share, and the flags and the wrapped
difference as numbers (44_alu_8xy.md R125 to R135). -/

namespace Sys2Proof.Machine

/-! ### The one answer of each instruction -/

theorem exec_ldReg (x y : Reg) (s : State) : exec (.ldReg x y) s = .next ((s.writeV x (s.readV y)).nextPC none) := rfl

theorem exec_orReg (x y : Reg) (s : State) :
    exec (.orReg x y) s = .next ((s.writeV x (s.readV x ||| s.readV y)).nextPC none) := rfl

theorem exec_andReg (x y : Reg) (s : State) :
    exec (.andReg x y) s = .next ((s.writeV x (s.readV x &&& s.readV y)).nextPC none) := rfl

theorem exec_xorReg (x y : Reg) (s : State) :
    exec (.xorReg x y) s = .next ((s.writeV x (s.readV x ^^^ s.readV y)).nextPC none) := rfl

theorem exec_addReg (x y : Reg) (s : State) : exec (.addReg x y) s =
    .next ((s.writeFlagged x (carryFlag (s.readV x) (s.readV y)) (s.readV x + s.readV y)).nextPC none) := rfl

theorem exec_sub (x y : Reg) (s : State) : exec (.sub x y) s =
    .next ((s.writeFlagged x (greaterFlag (s.readV x) (s.readV y)) (s.readV x - s.readV y)).nextPC none) := rfl

theorem exec_shr (x y : Reg) (s : State) : exec (.shr x y) s =
    .next ((s.writeFlagged x (lowBitFlag (s.readV x)) (s.readV x >>> 1)).nextPC none) := rfl

theorem exec_subn (x y : Reg) (s : State) : exec (.subn x y) s =
    .next ((s.writeFlagged x (greaterFlag (s.readV y) (s.readV x)) (s.readV y - s.readV x)).nextPC none) := rfl

theorem exec_shl (x y : Reg) (s : State) : exec (.shl x y) s =
    .next ((s.writeFlagged x (highBitFlag (s.readV x)) (s.readV x <<< 1)).nextPC none) := rfl

/-! ### The two write shapes -/

/-- The frame of an instruction that writes a flag and a result and advances PC. -/
theorem OnlyRegisters.writeFlagged_nextPC (s : State) (x : Reg) (flag result : Byte) :
    OnlyRegisters [x, 15] s ((s.writeFlagged x flag result).nextPC none) :=
  have hVF : OnlyRegisters [x, 15] s (s.writeV VF flag) := (OnlyRegisters.refl _ s).writeV (by simp) flag
  (hVF.writeV (by simp) result).nextPC none

/-- All an instruction does whose answer is one register write and the advance of PC (R127 to R130). -/
theorem exec_writeV_spec {i : Instr} {x : Reg} {v : Byte} {s : State}
    (h : exec i s = .next ((s.writeV x v).nextPC none)) :
    ∃ t, exec i s = .next t ∧ t.readV x = v ∧ t.PC = s.PC + 2 ∧ OnlyRegisters [x] s t :=
  ⟨_, h, State.readV_writeV_same s x v, State.nextPC_none_PC _, .writeV_nextPC s x v⟩

/-- All an instruction does whose answer is the flag write, then the result write, and the advance of PC: the result is
in the destination always, the flag in VF where the destination is another register (R126). -/
theorem exec_writeFlagged_spec {i : Instr} {x : Reg} {flag result : Byte} {s : State}
    (h : exec i s = .next ((s.writeFlagged x flag result).nextPC none)) :
    ∃ t, exec i s = .next t ∧ t.readV x = result ∧ (x ≠ 15 → t.readV 15 = flag) ∧ t.PC = s.PC + 2 ∧
      OnlyRegisters [x, 15] s t :=
  ⟨_, h, State.readV_writeFlagged_dest s x flag result, State.readV_writeFlagged_flag s x flag result,
    State.nextPC_none_PC _, .writeFlagged_nextPC s x flag result⟩

/-! ### The flags as numbers -/

theorem toNat_flagByte (c : Bool) : (flagByte c).toNat = c.toNat := by
  cases c <;> rfl

theorem toNat_flagByte_decide (p : Prop) [Decidable p] : (flagByte (decide p)).toNat = if p then 1 else 0 := by
  rw [toNat_flagByte, Bool.toNat, Bool.cond_decide]

theorem toNat_carryFlag (a b : Byte) : (carryFlag a b).toNat = if 0xFF < a.toNat + b.toNat then 1 else 0 :=
  toNat_flagByte_decide _

theorem toNat_greaterFlag (a b : Byte) : (greaterFlag a b).toNat = if a.toNat > b.toNat then 1 else 0 :=
  toNat_flagByte_decide _

theorem toNat_lowBitFlag (a : Byte) : (lowBitFlag a).toNat = a.toNat % 2 := by
  rw [lowBitFlag, toNat_flagByte, BitVec.getLsbD, Nat.toNat_testBit, pow_zero, Nat.div_one]

/-- The quotient by 128 is already the bit, since a byte is below 256. -/
theorem toNat_highBitFlag (a : Byte) : (highBitFlag a).toNat = a.toNat / 128 := by
  have hlt : a.toNat < 256 := a.isLt
  rw [highBitFlag, toNat_flagByte, BitVec.getLsbD, Nat.toNat_testBit]
  omega

/-! ### The wrapped difference as a number -/

theorem toNat_byte_sub (a b : Byte) : (a - b).toNat = (a.toNat + 256 - b.toNat) % 256 := by
  have hlt : b.toNat < 256 := b.isLt
  rw [BitVec.toNat_sub]
  omega

end Sys2Proof.Machine
end

section
/-! PROOFS. The statements on the register-register operations. -/

namespace Sys2Proof.Machine

/-! ### Without a flag -/

/-- Settles O33: the one write is of the old V[y]. -/
theorem ldRegCopies : Obligations.LdRegCopies := fun x y s =>
  exec_writeV_spec (exec_ldReg x y s)

/-- Settles O34: the word-wide or, read bit by bit. -/
theorem orIsBitwise : Obligations.OrIsBitwise := by
  intro x y s
  obtain ⟨t, hexec, hdest, hpc, hframe⟩ := exec_writeV_spec (exec_orReg x y s)
  refine ⟨t, hexec, fun b _ => ?_, hpc, hframe⟩
  rw [hdest, BitVec.getLsbD_or]

/-- Settles O35: the word-wide and, read bit by bit. -/
theorem andIsBitwise : Obligations.AndIsBitwise := by
  intro x y s
  obtain ⟨t, hexec, hdest, hpc, hframe⟩ := exec_writeV_spec (exec_andReg x y s)
  refine ⟨t, hexec, fun b _ => ?_, hpc, hframe⟩
  rw [hdest, BitVec.getLsbD_and]

/-- Settles O36: the word-wide exclusive or, read bit by bit. -/
theorem xorIsBitwise : Obligations.XorIsBitwise := by
  intro x y s
  obtain ⟨t, hexec, hdest, hpc, hframe⟩ := exec_writeV_spec (exec_xorReg x y s)
  refine ⟨t, hexec, fun b _ => ?_, hpc, hframe⟩
  rw [hdest, BitVec.getLsbD_xor]

/-! ### With a flag -/

/-- Settles O37: both operands are read before VF is written, so the sum and its carry are of the old values. -/
theorem addRegSetsCarry : Obligations.AddRegSetsCarry := by
  intro x y s
  obtain ⟨t, hexec, hdest, hflag, hpc, hframe⟩ := exec_writeFlagged_spec (exec_addReg x y s)
  refine ⟨t, hexec, ?sum, fun hx => ?carry, hpc, hframe⟩
  case sum => rw [hdest, BitVec.toNat_add]
  case carry => rw [hflag hx, toNat_carryFlag]

/-- Settles O38: the flag compares V[x] with V[y], the minuend first. -/
theorem subSetsStrictlyGreater : Obligations.SubSetsStrictlyGreater := by
  intro x y s
  obtain ⟨t, hexec, hdest, hflag, hpc, hframe⟩ := exec_writeFlagged_spec (exec_sub x y s)
  refine ⟨t, hexec, ?difference, fun hx => ?greater, hpc, hframe⟩
  case difference => rw [hdest, toNat_byte_sub]
  case greater => rw [hflag hx, toNat_greaterFlag]

/-- Settles O39: quotient and remainder of the old V[x] by 2. -/
theorem shrHalvesIntoFlag : Obligations.ShrHalvesIntoFlag := by
  intro x y s
  obtain ⟨t, hexec, hdest, hflag, hpc, hframe⟩ := exec_writeFlagged_spec (exec_shr x y s)
  refine ⟨t, hexec, ?half, fun hx => ?lowBit, hpc, hframe⟩
  case half => rw [hdest, BitVec.toNat_ushiftRight, Nat.shiftRight_one]
  case lowBit => rw [hflag hx, toNat_lowBitFlag]

/-- Settles O40: SUB's difference and flag with the operands exchanged. -/
theorem subnSetsStrictlyGreater : Obligations.SubnSetsStrictlyGreater := by
  intro x y s
  obtain ⟨t, hexec, hdest, hflag, hpc, hframe⟩ := exec_writeFlagged_spec (exec_subn x y s)
  refine ⟨t, hexec, ?difference, fun hx => ?greater, hpc, hframe⟩
  case difference => rw [hdest, toNat_byte_sub]
  case greater => rw [hflag hx, toNat_greaterFlag]

/-- Settles O41: the doubled byte modulo 256, and the bit that the modulus drops. -/
theorem shlDoublesIntoFlag : Obligations.ShlDoublesIntoFlag := by
  intro x y s
  obtain ⟨t, hexec, hdest, hflag, hpc, hframe⟩ := exec_writeFlagged_spec (exec_shl x y s)
  refine ⟨t, hexec, ?double, fun hx => ?highBit, hpc, hframe⟩
  case double => rw [hdest, BitVec.toNat_shiftLeft, Nat.shiftLeft_eq, pow_one]
  case highBit => rw [hflag hx, toNat_highBitFlag]

end Sys2Proof.Machine
end

section
/-! SUPPORT. The one answer of LD I and of RND (45_index_random.md R140, R141). -/

namespace Sys2Proof.Machine

theorem exec_ldI (nnn : Addr) (s : State) : exec (.ldI nnn) s = .next ((s.setI (zextAddr nnn)).nextPC none) := rfl

theorem exec_rnd (x : Reg) (kk : Byte) (s : State) :
    exec (.rnd x kk) s = .next ((s.writeV x (s.rnd &&& kk)).nextPC none) := rfl

end Sys2Proof.Machine
end

section
/-! PROOFS. The statements on LD I, nnn and RND Vx, kk. -/

namespace Sys2Proof.Machine

/-- Settles O42: one write of I, of the zero-extended address, with the PC's advance is the whole change. -/
theorem ldILoadsNnn : Obligations.LdILoadsNnn := by
  intro nnn s
  refine ⟨(s.setI (zextAddr nnn)).nextPC none, exec_ldI nnn s, ?index, State.nextPC_none_PC _, ?registers, ?timer,
    ?stack, fun _ => rfl, ?memory, ?status, rfl, ?inputs⟩
  case index => exact toNat_zextAddr nnn
  case registers => exact .of_V_eq rfl
  case timer => exact ⟨rfl, rfl⟩
  case stack => exact .of_stack_eq rfl rfl
  case memory => exact .of_mem_eq rfl
  case status => exact ⟨rfl, rfl⟩
  case inputs => exact ⟨rfl, rfl, rfl, rfl, rfl⟩

/-- Settles O43: the word-wide and of the random input and kk, read bit by bit. -/
theorem rndMasksRandomInput : Obligations.RndMasksRandomInput := by
  intro x kk s
  obtain ⟨t, hexec, hdest, hpc, hframe⟩ := exec_writeV_spec (exec_rnd x kk s)
  refine ⟨t, hexec, fun b _ => ?_, hpc, hframe⟩
  rw [hdest, BitVec.getLsbD_and]

end Sys2Proof.Machine
end

section
/-! SUPPORT. DRW in the words of the statements: the two answers by whether the sprite is in memory, and the screen and
the collision after a sprite by the cells it covers (46_draw.md R145 to R149). -/

namespace Sys2Proof.Machine

variable {s : State} {x y : Reg} {n : Nibble}

/-- The state after a sprite that is in memory. -/
def State.drawn (s : State) (x y : Reg) (n : Nibble) : State :=
  ((s.setFb (drawSprite s x y n.toNat).1).writeV VF (collisionFlag (drawSprite s x y n.toNat).2)).nextPC none

/-! ### The two answers -/

/-- The bounds check looks at the last row address only, which is the largest. -/
theorem spriteInMemory_iff : SpriteInMemory s n ↔ s.spriteOutOfBounds n.toNat = false := by
  rw [← Bool.not_eq_true, State.spriteOutOfBounds_iff]
  constructor
  · rintro hin ⟨hpos, hout⟩
    have hlast := hin (n.toNat - 1) (by omega)
    omega
  · intro hlast i hi
    omega

theorem exec_drw_of_inMemory (x y : Reg) (h : SpriteInMemory s n) : exec (.drw x y n) s = .next (s.drawn x y n) :=
  execDrw_of_in s x y n (spriteInMemory_iff.mp h)

theorem exec_drw_of_not_inMemory (x y : Reg) (h : ¬ SpriteInMemory s n) :
    exec (.drw x y n) s = .next (s.raiseFatal .spriteReadOutOfBounds (encode (.drw x y n))) :=
  execDrw_of_out s x y n (Bool.eq_true_of_not_eq_false (mt spriteInMemory_iff.mpr h))

theorem encode_drw (x y : Reg) (n : Nibble) :
    encode (.drw x y n) = BitVec.ofNat 16 (0xD000 + x.toNat * 256 + y.toNat * 16 + n.toNat) := by
  have hword : (encode (.drw x y n)).toNat = 0xD000 + x.toNat * 256 + y.toNat * 16 + n.toNat :=
    toNat_encodeXYN 0xD x y n
  rw [← hword, BitVec.ofNat_toNat, BitVec.setWidth_eq]

/-! ### The covered cells -/

theorem SpriteCovers.lt {c r : Nat} (h : SpriteCovers s x y n c r) : c < 64 ∧ r < 32 := by
  obtain ⟨i, j, -, -, -, rfl, rfl⟩ := h
  exact ⟨Nat.mod_lt _ (by decide), Nat.mod_lt _ (by decide)⟩

/-- The set pixels of a sprite are the cells it covers. -/
theorem on_mem_spritePixels_iff (k : Nat) :
    (k, true) ∈ spritePixels s (s.readV x) (s.readV y) n.toNat 0 ↔
      ∃ c r, SpriteCovers s x y n c r ∧ k = r * 64 + c := by
  rw [mem_spritePixels]
  constructor
  · rintro ⟨i, j, -, hi, hj, hpixel⟩
    obtain ⟨rfl, hbit⟩ := Prod.mk.inj hpixel
    exact ⟨_, _, ⟨i, j, by omega, hj, hbit.symm, rfl, rfl⟩, rfl⟩
  · rintro ⟨c, r, ⟨i, j, hi, hj, hbit, rfl, rfl⟩, rfl⟩
    exact ⟨i, j, Nat.zero_le i, by omega, hj, Prod.ext rfl hbit.symm⟩

/-- Column and row of a cell on the screen are determined by its index. -/
theorem cell_on_mem_spritePixels_iff {c r : Nat} (hc : c < 64) :
    (r * 64 + c, true) ∈ spritePixels s (s.readV x) (s.readV y) n.toNat 0 ↔ SpriteCovers s x y n c r := by
  rw [on_mem_spritePixels_iff]
  constructor
  · rintro ⟨c', r', hcov, hcell⟩
    have hc' := hcov.lt.1
    obtain ⟨rfl, rfl⟩ : c' = c ∧ r' = r := by omega
    exact hcov
  · exact fun hcov => ⟨c, r, hcov, rfl⟩

/-! ### The state after a sprite in memory -/

/-- A sprite has at most 15 rows, so its rows do not meet each other (R152). -/
theorem State.drawn_fb_read (s : State) (x y : Reg) (n : Nibble) (k : Nat) :
    (s.drawn x y n).fb.read k =
      if (k, true) ∈ spritePixels s (s.readV x) (s.readV y) n.toNat 0 then s.fb.read k ^^^ 0xFF else s.fb.read k :=
  drawSprite_read s x y n.toNat k (by omega)

theorem State.drawn_fb_read_covered {c r : Nat} (h : SpriteCovers s x y n c r) :
    (s.drawn x y n).fb.read (r * 64 + c) = s.fb.read (r * 64 + c) ^^^ 0xFF := by
  rw [State.drawn_fb_read, if_pos ((cell_on_mem_spritePixels_iff h.lt.1).mpr h)]

theorem State.drawn_fb_read_uncovered {c r : Nat} (hc : c < 64) (h : ¬ SpriteCovers s x y n c r) :
    (s.drawn x y n).fb.read (r * 64 + c) = s.fb.read (r * 64 + c) := by
  rw [State.drawn_fb_read, if_neg (mt (cell_on_mem_spritePixels_iff hc).mp h)]

theorem State.drawn_fb_read_beyond {k : Nat} (hk : 2048 ≤ k) : (s.drawn x y n).fb.read k = s.fb.read k := by
  rw [State.drawn_fb_read, if_neg]
  intro hmem
  obtain ⟨c, r, hcov, rfl⟩ := (on_mem_spritePixels_iff k).mp hmem
  obtain ⟨hc, hr⟩ := hcov.lt
  omega

theorem drawSprite_hit_iff_covers :
    (drawSprite s x y n.toNat).2 = true ↔ ∃ c r, SpriteCovers s x y n c r ∧ s.fb.read (r * 64 + c) = 0xFF := by
  rw [drawSprite_hit s x y n.toNat (by omega)]
  constructor
  · rintro ⟨k, hmem, hon⟩
    obtain ⟨c, r, hcov, rfl⟩ := (on_mem_spritePixels_iff k).mp hmem
    exact ⟨c, r, hcov, hon⟩
  · rintro ⟨c, r, hcov, hon⟩
    exact ⟨r * 64 + c, (on_mem_spritePixels_iff _).mpr ⟨c, r, hcov, rfl⟩, hon⟩

theorem State.drawn_readV_flag (s : State) (x y : Reg) (n : Nibble) :
    (s.drawn x y n).readV 15 = collisionFlag (drawSprite s x y n.toNat).2 := by
  rw [State.drawn, State.readV_nextPC, State.readV_writeV_same]

theorem State.drawn_flag_of_collision
    (h : ∃ c r, SpriteCovers s x y n c r ∧ s.fb.read (r * 64 + c) = 0xFF) : (s.drawn x y n).readV 15 = 1 := by
  rw [State.drawn_readV_flag, drawSprite_hit_iff_covers.mpr h]
  rfl

theorem State.drawn_flag_of_no_collision
    (h : ¬ ∃ c r, SpriteCovers s x y n c r ∧ s.fb.read (r * 64 + c) = 0xFF) : (s.drawn x y n).readV 15 = 0 := by
  rw [State.drawn_readV_flag, Bool.eq_false_iff.mpr (mt drawSprite_hit_iff_covers.mp h)]
  rfl

/-- Beside the framebuffer, a sprite writes VF and PC only. -/
theorem State.drawn_frame (s : State) (x y : Reg) (n : Nibble) :
    OnlyRegisters [15] (s.setFb (drawSprite s x y n.toNat).1) (s.drawn x y n) :=
  .writeV_nextPC _ VF _

end Sys2Proof.Machine
end

section
/-! PROOFS. The statement on DRW. -/

namespace Sys2Proof.Machine

/-- Settles O47: a sprite in memory is its covered cells, each drawn once, and its frame is that of one register write
on the state with the new framebuffer; a sprite beyond memory leaves the fault record. -/
theorem drwXorsCoveredCells : Obligations.DrwXorsCoveredCells := by
  refine ⟨fun x y n s hin => ?inMemory, fun x y n s hout => ?beyond⟩
  case inMemory =>
    obtain ⟨hregs, hindex, htimer, hstack, -, hmem, hstatus, hdiag, hinputs⟩ := s.drawn_frame x y n
    refine ⟨s.drawn x y n, exec_drw_of_inMemory x y hin, ?cells, ?outside, ?collision, ?noCollision,
      State.nextPC_none_PC _, hregs, hindex, htimer, hstack, hmem, hstatus, hdiag, hinputs⟩
    case cells => exact fun c r hc _ => ⟨State.drawn_fb_read_covered, State.drawn_fb_read_uncovered hc⟩
    case outside => exact fun k hk => State.drawn_fb_read_beyond hk
    case collision => exact State.drawn_flag_of_collision
    case noCollision => exact State.drawn_flag_of_no_collision
  case beyond =>
    refine ⟨_, exec_drw_of_not_inMemory x y hout, ?_⟩
    rw [State.raiseFatal_fault, encode_drw]

end Sys2Proof.Machine
end

section
/-! SUPPORT. The one answer of LD Vx, DT and of LD DT, Vx (47_timer.md R155, R156). -/

namespace Sys2Proof.Machine

theorem exec_ldVxDT (x : Reg) (s : State) : exec (.ldVxDT x) s = .next ((s.writeV x s.DT).nextPC none) := rfl

theorem exec_ldDTVx (x : Reg) (s : State) : exec (.ldDTVx x) s = .next ((s.setDT (s.readV x)).nextPC none) := rfl

end Sys2Proof.Machine
end

section
/-! PROOFS. The statements on LD Vx, DT and LD DT, Vx. -/

namespace Sys2Proof.Machine

/-- Settles O44: one register write, of the timer as it stands, with the PC's advance is the whole change. -/
theorem ldVxDTReadsTimer : Obligations.LdVxDTReadsTimer := fun x s => exec_writeV_spec (exec_ldVxDT x s)

/-- Settles O45: one write of the timer, of the register's byte, with the PC's advance is the whole change; the instant
of the last tick is a field of its own. -/
theorem ldDTVxSetsTimer : Obligations.LdDTVxSetsTimer := by
  intro x s
  refine ⟨(s.setDT (s.readV x)).nextPC none, exec_ldDTVx x s, ?timer, ?instant, State.nextPC_none_PC _, ?registers,
    rfl, ?stack, fun _ => rfl, ?memory, ?status, rfl, ?inputs⟩
  case timer => exact State.setDT_DT s (s.readV x)
  case instant => exact State.setDT_lastTick s (s.readV x)
  case registers => exact .of_V_eq rfl
  case stack => exact .of_stack_eq rfl rfl
  case memory => exact .of_mem_eq rfl
  case status => exact ⟨rfl, rfl⟩
  case inputs => exact ⟨rfl, rfl, rfl, rfl, rfl⟩

end Sys2Proof.Machine
end

section
/-! SUPPORT. The decoder and the encoder as inverses, the unknown words as numbers, and the opcode map as a partition of
the known words (30_encoding.md R76 to R85, R88). -/

namespace Sys2Proof

/-! ### The rows of the opcode map as numbers -/

theorem holds_FFFF_iff {p w : Word} : OpcodeRow.holds ⟨p, 0xFFFF⟩ w = true ↔ w.toNat = p.toNat := by
  rw [OpcodeRow.holds, beq_iff_eq, and_FFFF, BitVec.toNat_inj]

theorem holds_F000_iff {p w : Word} :
    OpcodeRow.holds ⟨p, 0xF000⟩ w = true ↔ w.toNat / 4096 * 4096 = p.toNat := by
  rw [OpcodeRow.holds, beq_iff_eq, ← BitVec.toNat_inj, toNat_and_F000]

theorem holds_F00F_iff {p w : Word} :
    OpcodeRow.holds ⟨p, 0xF00F⟩ w = true ↔ w.toNat / 4096 * 4096 + w.toNat % 16 = p.toNat := by
  rw [OpcodeRow.holds, beq_iff_eq, ← BitVec.toNat_inj, toNat_and_F00F]

theorem holds_F0FF_iff {p w : Word} :
    OpcodeRow.holds ⟨p, 0xF0FF⟩ w = true ↔ w.toNat / 4096 * 4096 + w.toNat % 256 = p.toNat := by
  rw [OpcodeRow.holds, beq_iff_eq, ← BitVec.toNat_inj, toNat_and_F0FF]

/-! ### The unknown words -/

/-- The words R82 lists, family by family. -/
def ListedUnknown (w : Word) : Prop :=
  w.toNat / 4096 ∈ [0x5, 0x9, 0xB, 0xE] ∨
  (w.toNat / 4096 = 0x0 ∧ w.toNat ≠ 0x00E0 ∧ w.toNat ≠ 0x00EE) ∨
  (w.toNat / 4096 = 0x8 ∧ w.toNat % 16 ∈ [0x8, 0x9, 0xA, 0xB, 0xC, 0xD, 0xF]) ∨
  (w.toNat / 4096 = 0xF ∧ w.toNat % 256 ≠ 0x07 ∧ w.toNat % 256 ≠ 0x15)

theorem isUnknownWord_iff_listed (w : Word) : isUnknownWord w = true ↔ ListedUnknown w := by
  have hlt : w.toNat < 65536 := w.isLt
  simp only [isUnknownWord, opcodeMap, List.all_append, List.all_cons, List.all_nil, Bool.and_true, Bool.and_eq_true,
    Bool.not_eq_true', ← Bool.not_eq_true, holds_FFFF_iff, holds_F000_iff, holds_F00F_iff, holds_F0FF_iff]
  simp only [BitVec.ofNat_eq_ofNat, BitVec.toNat_ofNat, ListedUnknown, List.mem_cons, List.not_mem_nil, or_false]
  omega

/-! ### What the decoder reads -/

theorem encode_decodeFamily0 (w : Word) : encode (decodeFamily0 w) = w := by
  unfold decodeFamily0
  split
  · next h => exact h.symm
  · split
    · next h => exact h.symm
    · rfl

/-- A word of family 8 whose sub-opcode has an operation is that operation's word. -/
theorem encodeXYN_of_toNat {w : Word} {f n : Nibble} (hf : (fieldFamily w).toNat = f.toNat)
    (hn : (fieldN w).toNat = n.toNat) : encodeXYN f (fieldX w) (fieldY w) n = w := by
  rw [← BitVec.eq_of_toNat_eq hf, ← BitVec.eq_of_toNat_eq hn, encodeXYN_fields]

theorem encodeXKK_of_toNat {w : Word} {f : Nibble} {kk : Byte} (hf : (fieldFamily w).toNat = f.toNat)
    (hkk : fieldKK w = kk) : encodeXKK f (fieldX w) kk = w := by
  rw [← BitVec.eq_of_toNat_eq hf, ← hkk, encodeXKK_fields]

theorem encodeNNN_of_toNat {w : Word} {f : Nibble} (hf : (fieldFamily w).toNat = f.toNat) :
    encodeNNN f (fieldNNN w) = w := by
  rw [← BitVec.eq_of_toNat_eq hf, encodeNNN_fields]

theorem encode_decodeFamily8 {w : Word} (hf : (fieldFamily w).toNat = 0x8) : encode (decodeFamily8 w) = w := by
  unfold decodeFamily8
  split
  case h_10 => rfl
  all_goals exact encodeXYN_of_toNat hf ‹_›

theorem encode_decodeFamilyF {w : Word} (hf : (fieldFamily w).toNat = 0xF) : encode (decodeFamilyF w) = w := by
  unfold decodeFamilyF
  split
  · next hkk => exact encodeXKK_of_toNat hf hkk
  · split
    · next hkk => exact encodeXKK_of_toNat hf hkk
    · rfl

/-- The decoder loses no bit of a word (R85, R88). -/
theorem encode_decode (w : Word) : encode (decode w) = w := by
  unfold decode
  split
  case h_1 => exact encode_decodeFamily0 w
  case h_2 hf => exact encodeNNN_of_toNat hf
  case h_3 hf => exact encodeNNN_of_toNat hf
  case h_4 hf => exact encodeXKK_of_toNat hf rfl
  case h_5 hf => exact encodeXKK_of_toNat hf rfl
  case h_6 hf => exact encodeXKK_of_toNat hf rfl
  case h_7 hf => exact encodeXKK_of_toNat hf rfl
  case h_8 hf => exact encode_decodeFamily8 hf
  case h_9 hf => exact encodeNNN_of_toNat hf
  case h_10 hf => exact encodeXKK_of_toNat hf rfl
  case h_11 hf => exact encodeXYN_of_toNat hf rfl
  case h_12 hf => exact encode_decodeFamilyF hf
  case h_13 => rfl

/-- An unknown word is decoded as itself. -/
theorem eq_of_decode_eq_unknown {w v : Word} (h : decode w = .unknown v) : v = w :=
  (congrArg encode h).symm.trans (encode_decode w)

theorem decodeFamily0_eq_unknown_iff (w : Word) :
    decodeFamily0 w = .unknown w ↔ w.toNat ≠ 0x00E0 ∧ w.toNat ≠ 0x00EE := by
  simp only [decodeFamily0, ← BitVec.toNat_inj, BitVec.toNat_ofNat]
  split_ifs <;> simp_all

theorem decodeFamily8_eq_unknown_iff (w : Word) :
    decodeFamily8 w = .unknown w ↔ w.toNat % 16 ∈ [0x8, 0x9, 0xA, 0xB, 0xC, 0xD, 0xF] := by
  rw [← toNat_fieldN]
  have hlt : (fieldN w).toNat < 16 := (fieldN w).isLt
  simp only [List.mem_cons, List.not_mem_nil, or_false]
  unfold decodeFamily8
  split
  case h_10 =>
    refine iff_of_true rfl ?_
    simp only [imp_false] at *
    omega
  all_goals exact iff_of_false nofun (by omega)

theorem decodeFamilyF_eq_unknown_iff (w : Word) :
    decodeFamilyF w = .unknown w ↔ w.toNat % 256 ≠ 0x07 ∧ w.toNat % 256 ≠ 0x15 := by
  simp only [decodeFamilyF, ← BitVec.toNat_inj, toNat_fieldKK, BitVec.toNat_ofNat]
  split_ifs <;> simp_all

/-- Family by family: three families have words of both kinds, nine are known, four are unknown (R82). -/
theorem decode_eq_unknown_iff_listed (w : Word) : decode w = .unknown w ↔ ListedUnknown w := by
  have hlt : w.toNat < 65536 := w.isLt
  have hfamily : w.toNat / 4096 = (fieldFamily w).toNat := by rw [toNat_fieldFamily]; omega
  simp only [ListedUnknown, ← decodeFamily0_eq_unknown_iff, ← decodeFamily8_eq_unknown_iff,
    ← decodeFamilyF_eq_unknown_iff, hfamily]
  have hlt : (fieldFamily w).toNat < 16 := (fieldFamily w).isLt
  unfold decode
  split
  case h_13 =>
    refine iff_of_true rfl ?_
    simp only [imp_false, List.mem_cons, List.not_mem_nil, or_false] at *
    omega
  all_goals
    next hf => simp [hf]

theorem decode_eq_unknown_iff (w : Word) : decode w = .unknown w ↔ isUnknownWord w = true :=
  (decode_eq_unknown_iff_listed w).trans (isUnknownWord_iff_listed w).symm

theorem wf_decode (w : Word) : (decode w).wf = true := by
  cases h : decode w with
  | unknown v =>
    cases eq_of_decode_eq_unknown h
    exact (decode_eq_unknown_iff w).mp h
  | _ => rfl

/-- Each format's word is dispatched on its family, and families 8 and F on their sub-opcode (R76, R78, R79). -/
theorem decode_encode {i : Instr} (h : i.wf = true) : decode (encode i) = i := by
  cases i with
  | unknown w => exact (decode_eq_unknown_iff w).mpr h
  | cls => rfl
  | ret => rfl
  | jp nnn => simp [encode, decode]
  | call nnn => simp [encode, decode]
  | ldI nnn => simp [encode, decode]
  | se x kk => simp [encode, decode]
  | sne x kk => simp [encode, decode]
  | ldImm x kk => simp [encode, decode]
  | addImm x kk => simp [encode, decode]
  | rnd x kk => simp [encode, decode]
  | drw x y n => simp [encode, decode]
  | ldVxDT x => simp [encode, decode, decodeFamilyF]
  | ldDTVx x => simp [encode, decode, decodeFamilyF]
  | _ x y => simp [encode, decode, decodeFamily8]

/-! ### The opcode map -/

/-- Two rows that both hold of one word agree on the bits that both masks keep. -/
theorem OpcodeRow.patterns_agree {r r' : OpcodeRow} {w : Word} (h : r.holds w = true) (h' : r'.holds w = true) :
    r.pattern &&& r'.mask = r'.pattern &&& r.mask := by
  simp only [OpcodeRow.holds, beq_iff_eq] at h h'
  rw [← h, ← h', BitVec.and_assoc, BitVec.and_assoc, BitVec.and_comm r.mask]

theorem opcodeMap_patterns_disagree :
    opcodeMap.Pairwise fun r r' => r.pattern &&& r'.mask ≠ r'.pattern &&& r.mask := by
  decide

/-- No word matches two rows. -/
theorem opcodeMap_row_unique {w : Word} {k k' : Nat} {r r' : OpcodeRow} (hk : opcodeMap[k]? = some r)
    (hk' : opcodeMap[k']? = some r') (h : r.holds w = true) (h' : r'.holds w = true) : k = k' := by
  obtain ⟨hlt, rfl⟩ := List.getElem?_eq_some_iff.mp hk
  obtain ⟨hlt', rfl⟩ := List.getElem?_eq_some_iff.mp hk'
  have hpairs := List.pairwise_iff_getElem.mp opcodeMap_patterns_disagree
  rcases Nat.lt_trichotomy k k' with hlow | heq | hhigh
  · exact absurd (OpcodeRow.patterns_agree h h') (hpairs k k' hlt hlt' hlow)
  · exact heq
  · exact absurd (OpcodeRow.patterns_agree h' h) (hpairs k' k hlt' hlt hhigh)

theorem holds_encode (i : Instr) : Laws.InOwnRow.Statement i := by
  cases i with
  | cls => exact Laws.InOwnRow.cls
  | ret => exact Laws.InOwnRow.ret
  | jp nnn => exact Laws.InOwnRow.jp nnn
  | call nnn => exact Laws.InOwnRow.call nnn
  | se x kk => exact Laws.InOwnRow.se x kk
  | sne x kk => exact Laws.InOwnRow.sne x kk
  | ldImm x kk => exact Laws.InOwnRow.ldImm x kk
  | addImm x kk => exact Laws.InOwnRow.addImm x kk
  | ldReg x y => exact Laws.InOwnRow.ldReg x y
  | orReg x y => exact Laws.InOwnRow.orReg x y
  | andReg x y => exact Laws.InOwnRow.andReg x y
  | xorReg x y => exact Laws.InOwnRow.xorReg x y
  | addReg x y => exact Laws.InOwnRow.addReg x y
  | sub x y => exact Laws.InOwnRow.sub x y
  | shr x y => exact Laws.InOwnRow.shr x y
  | subn x y => exact Laws.InOwnRow.subn x y
  | shl x y => exact Laws.InOwnRow.shl x y
  | ldI nnn => exact Laws.InOwnRow.ldI nnn
  | rnd x kk => exact Laws.InOwnRow.rnd x kk
  | drw x y n => exact Laws.InOwnRow.drw x y n
  | ldVxDT x => exact Laws.InOwnRow.ldVxDT x
  | ldDTVx x => exact Laws.InOwnRow.ldDTVx x
  | unknown w => exact Laws.InOwnRow.unknown w

theorem holds_of_rowNumber_decode {w : Word} {k : Nat} {row : OpcodeRow} (hk : opcodeMap[k]? = some row)
    (hrow : Machine.rowNumber (decode w) = some k) : row.holds w = true := by
  simpa only [encode_decode] using holds_encode (decode w) k row hrow hk

/-- Every instruction but an unknown word has a row of its own. -/
theorem rowNumber_cases (i : Instr) :
    (∃ k, Machine.rowNumber i = some k ∧ k < opcodeMap.length) ∨ ∃ w, i = .unknown w := by
  cases i with
  | unknown w => exact .inr ⟨w, rfl⟩
  | _ => exact .inl ⟨_, rfl, by decide⟩

theorem not_holds_of_isUnknownWord {w : Word} (h : isUnknownWord w = true) {row : OpcodeRow} (hrow : row ∈ opcodeMap) :
    row.holds w = false := by
  simpa using List.all_eq_true.mp h row hrow

theorem rowNumber_decode_of_holds {w : Word} {k : Nat} {row : OpcodeRow} (hk : opcodeMap[k]? = some row)
    (h : row.holds w = true) : Machine.rowNumber (decode w) = some k := by
  rcases rowNumber_cases (decode w) with ⟨k', hk', hlt⟩ | ⟨v, hv⟩
  · have hown := holds_of_rowNumber_decode (List.getElem?_eq_getElem hlt) hk'
    rw [hk', opcodeMap_row_unique (List.getElem?_eq_getElem hlt) hk hown h]
  · cases eq_of_decode_eq_unknown hv
    have hno := not_holds_of_isUnknownWord ((decode_eq_unknown_iff w).mp hv) (List.mem_of_getElem? hk)
    exact absurd h (by simp [hno])

end Sys2Proof
end

section
/-! PROOFS. The statements on the encoding. -/

namespace Sys2Proof

/-- Settles O52: the encoder's word is dispatched to its own instruction. -/
theorem decodeOfEncode : Obligations.DecodeOfEncode := fun _ => decode_encode

/-- Settles O53: no bit is lost, and the decoder falls through on unknown words only. -/
theorem encodeOfDecode : Obligations.EncodeOfDecode := fun w => ⟨wf_decode w, encode_decode w⟩

/-- Settles O54: a matching row is the one whose number the instruction has, since no word matches two rows and an
unknown word matches none. -/
theorem decodeFollowsOpcodeMap : Obligations.DecodeFollowsOpcodeMap := by
  intro w k row hk
  rw [← beq_iff_eq]
  exact ⟨rowNumber_decode_of_holds hk, holds_of_rowNumber_decode hk⟩

/-- Settles O55: the decoder's fall-through cases, family by family. -/
theorem unknownWordsAreExactlyListed : Obligations.UnknownWordsAreExactlyListed := decode_eq_unknown_iff_listed

/-- Settles O51: each word is the encoder's word of its instruction. -/
theorem sampleWordsDecodeAsSpecified : Obligations.SampleWordsDecodeAsSpecified :=
  ⟨decode_encode (i := .cls) rfl, decode_encode (i := .ret) rfl, decode_encode (i := .jp 0xABC) rfl,
    decode_encode (i := .se 0x3 0x42) rfl, decode_encode (i := .addReg 0xF 0x1) rfl,
    decode_encode (i := .shl 0x0 0x1) rfl, decode_encode (i := .ldI 0x123) rfl, decode_encode (i := .rnd 0x3 0x0F) rfl,
    decode_encode (i := .drw 0xF 0x1 0x2) rfl, decode_encode (i := .ldDTVx 0x3) rfl,
    decode_encode (i := .unknown 0x5120) rfl⟩

end Sys2Proof
end

section
/-! SUPPORT. All an instruction and a step can do: `exec` raises the one fatal fault its instruction can raise, or answers
one next state, given here as a function of the state; and what that next state leaves unchanged (00_scope.md R16,
40_step.md R93 to R97, 60_exceptions.md R161). -/

namespace Sys2Proof.Machine

/-- The fatal fault an instruction raises in this state, if any (R162, R163, R165). -/
def State.fatalKind (s : State) : Instr → Option FatalKind
  | .call _ => if s.SP.val = 16 then some .stackOverflow else none
  | .ret => if s.SP.val = 0 then some .stackUnderflow else none
  | .drw _ _ n => if s.spriteOutOfBounds n.toNat then some .spriteReadOutOfBounds else none
  | _ => none

/-- The state after an instruction that raises no fatal fault. -/
def State.after (s : State) : Instr → State
  | .cls => (s.setFb Memory.clearScreen).nextPC none
  | .ret => s.dropTop.nextPC (some s.top)
  | .jp nnn => s.nextPC (some (zextAddr nnn))
  | .call nnn => ((s.push s.returnAddress).getD s).nextPC (some (zextAddr nnn))
  | .se x kk => s.nextPC (if s.readV x == kk then some s.skipTarget else none)
  | .sne x kk => s.nextPC (if s.readV x != kk then some s.skipTarget else none)
  | .ldImm x kk => (s.writeV x kk).nextPC none
  | .addImm x kk => (s.writeV x (s.readV x + kk)).nextPC none
  | .ldReg x y => (s.writeV x (s.readV y)).nextPC none
  | .orReg x y => (s.writeV x (s.readV x ||| s.readV y)).nextPC none
  | .andReg x y => (s.writeV x (s.readV x &&& s.readV y)).nextPC none
  | .xorReg x y => (s.writeV x (s.readV x ^^^ s.readV y)).nextPC none
  | .addReg x y => (s.writeFlagged x (carryFlag (s.readV x) (s.readV y)) (s.readV x + s.readV y)).nextPC none
  | .sub x y => (s.writeFlagged x (greaterFlag (s.readV x) (s.readV y)) (s.readV x - s.readV y)).nextPC none
  | .shr x _ => (s.writeFlagged x (lowBitFlag (s.readV x)) (s.readV x >>> 1)).nextPC none
  | .subn x y => (s.writeFlagged x (greaterFlag (s.readV y) (s.readV x)) (s.readV y - s.readV x)).nextPC none
  | .shl x _ => (s.writeFlagged x (highBitFlag (s.readV x)) (s.readV x <<< 1)).nextPC none
  | .ldI nnn => (s.setI (zextAddr nnn)).nextPC none
  | .rnd x kk => (s.writeV x (s.rnd &&& kk)).nextPC none
  | .drw x y n => s.drawn x y n
  | .ldVxDT x => (s.writeV x s.DT).nextPC none
  | .ldDTVx x => (s.setDT (s.readV x)).nextPC none
  | .unknown w => (s.warn (.unknownInstruction w s.PC)).nextPC none

variable {s t : State} {i : Instr}

theorem State.fatalKind_call_eq_none_iff {nnn : Addr} : s.fatalKind (.call nnn) = none ↔ s.SP.val < 16 := by
  have hle := s.SP_le
  rw [State.fatalKind, ite_eq_right_iff]
  simp only [reduceCtorEq, imp_false]
  omega

theorem State.fatalKind_ret_eq_none_iff : s.fatalKind .ret = none ↔ s.SP.val ≠ 0 := by
  simp [State.fatalKind]

/-! ### The outcome of an instruction -/

theorem exec_of_fatal {k : FatalKind} (h : s.fatalKind i = some k) : exec i s = .next (s.raiseFatal k (encode i)) := by
  cases i with
  | call nnn =>
    obtain ⟨hfull, rfl⟩ : s.SP.val = 16 ∧ FatalKind.stackOverflow = k := by simpa [State.fatalKind] using h
    exact execCall_of_full s nnn hfull
  | ret =>
    obtain ⟨hempty, rfl⟩ : s.SP.val = 0 ∧ FatalKind.stackUnderflow = k := by simpa [State.fatalKind] using h
    exact execRet_of_empty s hempty
  | drw x y n =>
    obtain ⟨hout, rfl⟩ : s.spriteOutOfBounds n.toNat = true ∧ FatalKind.spriteReadOutOfBounds = k := by
      simpa [State.fatalKind] using h
    exact execDrw_of_out s x y n hout
  | _ => cases h

theorem exec_of_safe (h : s.fatalKind i = none) : exec i s = .next (s.after i) := by
  cases i with
  | call nnn =>
    have hroom := State.fatalKind_call_eq_none_iff.mp h
    rw [State.after, State.push_of_room s _ hroom]
    exact execCall_of_room s nnn hroom
  | ret =>
    exact execRet_of_occupied s (State.fatalKind_ret_eq_none_iff.mp h)
  | drw x y n =>
    have hin : s.spriteOutOfBounds n.toNat = false := by simpa [State.fatalKind] using h
    exact execDrw_of_in s x y n hin
  | _ => rfl

/-- No instruction faults or is refused: it halts the block with its own word in the record, or it has one next state. -/
theorem exec_cases (h : exec i s = .next t) :
    (∃ k, s.fatalKind i = some k ∧ t = s.raiseFatal k (encode i)) ∨ (s.fatalKind i = none ∧ t = s.after i) := by
  cases hk : s.fatalKind i with
  | none =>
    cases (exec_of_safe hk).symm.trans h
    exact .inr ⟨rfl, rfl⟩
  | some k =>
    cases (exec_of_fatal hk).symm.trans h
    exact .inl ⟨k, rfl, rfl⟩

/-! ### What every instruction leaves unchanged -/

/-- Memory, the instant of the tick, the block's status and the model's own fields are no instruction's to write. -/
theorem State.after_eq (s : State) (i : Instr) :
    s.after i = { s with
      V := (s.after i).V, I := (s.after i).I, PC := (s.after i).PC, DT := (s.after i).DT,
      stack := (s.after i).stack, SP := (s.after i).SP, fb := (s.after i).fb, diag := (s.after i).diag } := by
  cases i with
  | call nnn =>
    simp only [State.after, State.push]
    split <;> rfl
  | _ => rfl

@[simp] theorem State.after_mem (s : State) (i : Instr) : (s.after i).mem = s.mem := by rw [s.after_eq i]
@[simp] theorem State.after_lastTick (s : State) (i : Instr) : (s.after i).lastTick = s.lastTick := by rw [s.after_eq i]
@[simp] theorem State.after_phase (s : State) (i : Instr) : (s.after i).phase = s.phase := by rw [s.after_eq i]
@[simp] theorem State.after_fault (s : State) (i : Instr) : (s.after i).fault = s.fault := by rw [s.after_eq i]
@[simp] theorem State.after_now (s : State) (i : Instr) : (s.after i).now = s.now := by rw [s.after_eq i]
@[simp] theorem State.after_rnd (s : State) (i : Instr) : (s.after i).rnd = s.rnd := by rw [s.after_eq i]
@[simp] theorem State.after_schedule (s : State) (i : Instr) : (s.after i).schedule = s.schedule := by rw [s.after_eq i]

/-! ### What an instruction leaves unchanged unless it is one of those named -/

/-- CALL writes the stack and PC, whether the stack has room or not. -/
theorem State.after_call_eq (s : State) (nnn : Addr) :
    s.after (.call nnn) =
      { s with
        PC := zextAddr nnn, stack := (s.after (.call nnn)).stack, SP := (s.after (.call nnn)).SP } := by
  simp only [State.after, State.push]
  split <;> rfl

theorem State.after_I (s : State) (h : ∀ nnn, i ≠ .ldI nnn) : (s.after i).I = s.I := by
  cases i with
  | ldI nnn => exact absurd rfl (h nnn)
  | call nnn => rw [State.after_call_eq]
  | _ => rfl

theorem State.after_DT (s : State) (h : ∀ x, i ≠ .ldDTVx x) : (s.after i).DT = s.DT := by
  cases i with
  | ldDTVx x => exact absurd rfl (h x)
  | call nnn => rw [State.after_call_eq]
  | _ => rfl

theorem State.after_fb (s : State) (hcls : i ≠ .cls) (hdrw : ∀ x y n, i ≠ .drw x y n) : (s.after i).fb = s.fb := by
  cases i with
  | cls => exact absurd rfl hcls
  | drw x y n => exact absurd rfl (hdrw x y n)
  | call nnn => rw [State.after_call_eq]
  | _ => rfl

theorem State.after_diag (s : State) (h : ∀ w, i ≠ .unknown w) : (s.after i).diag = s.diag := by
  cases i with
  | unknown w => exact absurd rfl (h w)
  | call nnn => rw [State.after_call_eq]
  | _ => rfl

theorem State.after_stack (s : State) (hret : i ≠ .ret) (hcall : ∀ nnn, i ≠ .call nnn) :
    (s.after i).SP = s.SP ∧ (s.after i).stack = s.stack := by
  cases i with
  | ret => exact absurd rfl hret
  | call nnn => exact absurd rfl (hcall nnn)
  | _ => exact ⟨rfl, rfl⟩

theorem State.after_call_of_room (nnn : Addr) (h : s.SP.val < 16) :
    s.after (.call nnn) = (s.pushAt s.returnAddress h).nextPC (some (zextAddr nnn)) := by
  rw [State.after, State.push_of_room s _ h]
  rfl

/-- A general register is written as the destination, as VF by the flag writers, and by no one else (R16, R27). -/
theorem State.readV_after (s : State) {r : Reg} (hdest : destReg i ≠ some r) (hflag : r = VF → writesFlag i = false) :
    (s.after i).readV r = s.readV r := by
  have hVF (hw : writesFlag i = true) : r ≠ VF := fun he => by simp [hflag he] at hw
  have hx {x : Reg} (hd : destReg i = some x) : r ≠ x := fun he => hdest (he ▸ hd)
  cases i with
  | ldImm | addImm | ldReg | orReg | andReg | xorReg | rnd | ldVxDT =>
    exact State.readV_writeV_other s _ r _ (hx rfl)
  | addReg | sub | shr | subn | shl => exact State.readV_writeFlagged_other s _ r _ _ (hx rfl) (hVF rfl)
  | drw x y n => exact State.readV_writeV_other _ VF r _ (hVF rfl)
  | call nnn => rw [State.after_call_eq]; rfl
  | _ => rfl

/-! ### The outcome of a step -/

@[simp] theorem State.spriteOutOfBounds_begun (s : State) (n : Nat) :
    s.begun.spriteOutOfBounds n = s.spriteOutOfBounds n :=
  congrArg (fun v : IndexValue => decide (1 ≤ n) && decide (Config.memSize ≤ v.toNat + (n - 1))) s.begun_I

@[simp] theorem State.fatalKind_begun (s : State) (i : Instr) : s.begun.fatalKind i = s.fatalKind i := by
  cases i <;> simp only [State.fatalKind, State.begun_SP, State.spriteOutOfBounds_begun]

theorem State.fatalAhead_of_not_canFetch (h : ¬ s.CanFetch) : s.fatalAhead = some ⟨.fetchOutOfBounds, s.PC, 0⟩ :=
  if_pos (Nat.le_of_not_lt h)

/-- The table of R161 is the fatal fault of the instruction at PC, recorded with the fetched word. -/
theorem State.fatalAhead_of_canFetch (h : s.CanFetch) :
    s.fatalAhead = (s.fatalKind (decode s.wordAtPC)).map fun k => ⟨k, s.PC, s.wordAtPC⟩ := by
  rw [State.fatalAhead, if_neg (Nat.not_le_of_lt h)]
  have hword := encode_decode s.wordAtPC
  cases hi : decode s.wordAtPC with
  | call nnn => simp only [State.fatalKind]; split <;> rfl
  | ret =>
    rw [hi] at hword
    simp only [State.fatalKind, ← hword]
    split <;> rfl
  | drw x y n =>
    simp only [State.fatalKind, State.spriteOutOfBounds_iff, Config.memSize_eq]
    split <;> rfl
  | _ => rfl

/-- A step of a block that has not halted raises the fault that the table names, or is the instruction at PC. -/
theorem step_cases_fatalAhead (h : s.phase ≠ .halted) :
    (∃ k w, s.fatalAhead = some ⟨k, s.PC, w⟩ ∧ step s = .next (s.begun.raiseFatal k w)) ∨
      (s.fatalAhead = none ∧ step s = .next (s.begun.after (decode s.wordAtPC))) := by
  by_cases hf : s.CanFetch
  · rw [State.fatalAhead_of_canFetch hf, step_of_canFetch s h hf]
    cases hk : s.fatalKind (decode s.wordAtPC) with
    | none => exact .inr ⟨rfl, exec_of_safe (by simpa using hk)⟩
    | some k =>
      refine .inl ⟨k, _, rfl, ?_⟩
      simpa only [encode_decode] using exec_of_fatal (s := s.begun) (i := decode s.wordAtPC) (by simpa using hk)
  · exact .inl ⟨_, _, State.fatalAhead_of_not_canFetch hf, step_of_not_canFetch s h hf⟩

/-- All a step that ends in a next state can do: take a fatal fault, or run the instruction at PC, which raises none. -/
theorem step_next_cases (h : step s = .next t) :
    s.phase ≠ .halted ∧
      ((∃ k w, t = s.begun.raiseFatal k w) ∨
        (s.CanFetch ∧ s.fatalKind (decode s.wordAtPC) = none ∧ t = s.begun.after (decode s.wordAtPC))) := by
  obtain ⟨hlive, ⟨hf, hexec⟩ | ⟨-, ht⟩⟩ := step_cases h
  · rcases exec_cases hexec with ⟨k, -, ht⟩ | ⟨hsafe, ht⟩
    · exact ⟨hlive, .inl ⟨k, _, ht⟩⟩
    · exact ⟨hlive, .inr ⟨hf, by simpa using hsafe, ht⟩⟩
  · exact ⟨hlive, .inl ⟨_, _, ht⟩⟩

theorem after_of_step_completed (h : step s = .next t) (hc : t.Completed) :
    s.CanFetch ∧ s.fatalKind (decode s.wordAtPC) = none ∧ t = s.begun.after (decode s.wordAtPC) := by
  obtain ⟨-, ⟨k, w, rfl⟩ | hafter⟩ := step_next_cases h
  · exact absurd hc (State.not_completed_raiseFatal _ _)
  · exact hafter

end Sys2Proof.Machine
end

section
/-! PROOFS. The statements on what a step that completes changes, and on the fatal step. -/

namespace Sys2Proof.Machine

/-- Settles O12: a fatal step is the table's record written by raiseFatal; any other keeps phase and fault record of the
state it began in. -/
theorem stepHaltsExactlyOnListedFaults : Obligations.StepHaltsExactlyOnListedFaults := by
  intro s hlive
  rcases step_cases_fatalAhead hlive with ⟨k, w, hahead, hstep⟩ | ⟨hahead, hstep⟩
  · refine ⟨_, hstep, fun r hr => ?fatal, fun hnone => ?impossible⟩
    case fatal =>
      cases hahead.symm.trans hr
      have hfault : (s.begun.raiseFatal k w).fault = some ⟨k, s.PC, w⟩ := by simp
      exact ⟨rfl, hfault, by rw [stepResult, hfault], rfl, .of_mem_eq (by simp)⟩
    case impossible => cases hahead.symm.trans hnone
  · refine ⟨_, hstep, fun r hr => ?impossible, fun _ => ?completed⟩
    case impossible => cases hahead.symm.trans hr
    case completed =>
      refine ⟨by simp [State.Completed], by simp, fun hnone => ?_⟩
      have hfault : (s.begun.after (decode s.wordAtPC)).fault = none := by simpa using hnone
      rw [stepResult, hfault]

/-- Settles O13: an unknown word is decoded as itself, and only the instruction `unknown` writes the warning, which the
beginning of the step has cleared. -/
theorem stepWarnsExactlyOnUnknownWords : Obligations.StepWarnsExactlyOnUnknownWords := by
  intro s t hstep hc
  obtain ⟨-, -, rfl⟩ := after_of_step_completed hstep hc
  constructor
  · intro hunknown
    rw [(decode_eq_unknown_iff _).mpr hunknown]
    simp [State.after]
  · intro hknown
    rw [State.after_diag, State.begun_diag]
    rintro w hw
    cases eq_of_decode_eq_unknown hw
    simp [(decode_eq_unknown_iff _).mp hw] at hknown

/-- Settles O16: no instruction writes `last_tick`, and Fx15 alone writes DT. -/
theorem timerMovesOnlyByTickAndFx15 : Obligations.TimerMovesOnlyByTickAndFx15 := by
  intro s t hstep hc
  obtain ⟨-, -, rfl⟩ := after_of_step_completed hstep hc
  refine ⟨State.after_lastTick _ _, fun x hx => ?set, State.after_DT _⟩
  case set =>
    rw [hx, ← State.readV_begun]
    rfl

/-- Settles O17: Annn alone writes I, with a zero-extended address. -/
theorem indexMovesOnlyByAnnn : Obligations.IndexMovesOnlyByAnnn := by
  intro s t hstep hc
  obtain ⟨-, -, rfl⟩ := after_of_step_completed hstep hc
  refine ⟨fun nnn hnnn => ?set, fun hother => ?kept⟩
  case set =>
    rw [hnnn]
    exact toNat_zextAddr nnn
  case kept => rw [State.after_I _ hother, State.begun_I]

/-- Settles O18: what the host reads is a cell, so its view is kept with the cells. -/
theorem screenChangesOnlyByClsAndDrw : Obligations.ScreenChangesOnlyByClsAndDrw := by
  refine ⟨fun s t hstep hc hcls hdrw => ?_, fun _ _ _ _ _ => rfl⟩
  obtain ⟨-, -, rfl⟩ := after_of_step_completed hstep hc
  have hcells : SameScreen s (s.begun.after (decode s.wordAtPC)) := fun k => by
    rw [State.after_fb _ hcls hdrw, State.begun_fb]
  exact ⟨hcells, fun c r _ _ => hcells (cellIndex c r)⟩

/-- Settles O19: CALL has had room and RET an occupied slot, since the step completed. -/
theorem stackMovesOnlyByCallAndRet : Obligations.StackMovesOnlyByCallAndRet := by
  intro s t hstep hc
  obtain ⟨-, hsafe, rfl⟩ := after_of_step_completed hstep hc
  refine ⟨fun nnn hcall => ?call, fun hret => ?ret, fun hret hcall => ?other⟩
  case call =>
    rw [hcall] at hsafe ⊢
    have hroom : s.begun.SP.val < 16 := State.fatalKind_call_eq_none_iff.mp (by simpa using hsafe)
    rw [State.after_call_of_room nnn hroom]
    refine ⟨by simp, fun _ => by simp [State.returnAddress], fun k hk hlt => ?_⟩
    simp only [State.nextPC_stack, State.pushAt_stack, State.begun_SP]
    rw [Vector.getElem_set_ne _ _ (by omega)]
    simp
  case ret =>
    rw [hret] at hsafe ⊢
    have hoccupied := State.fatalKind_ret_eq_none_iff.mp hsafe
    have hSP : (s.begun.after .ret).SP.val = s.SP.val - 1 := by simp [State.after]
    exact ⟨by omega, fun k hk _ => by simp [State.after]⟩
  case other =>
    obtain ⟨hSP, hstack⟩ := s.begun.after_stack hret hcall
    exact .of_stack_eq (hSP.trans s.begun_SP) (hstack.trans s.begun_stack)

/-- Settles O20: the register rule of one instruction, in the state the step begins it in. -/
theorem registersChangeOnlyAsNamed : Obligations.RegistersChangeOnlyAsNamed := by
  intro s t hstep hc r hdest hflag
  obtain ⟨-, -, rfl⟩ := after_of_step_completed hstep hc
  rw [State.readV_after _ hdest hflag, State.readV_begun]

end Sys2Proof.Machine
end

section
/-! SUPPORT. The invariant of the machine: every instruction, every step and every request keeps it (10_state.md R26, R28,
R36, R38). -/

namespace Sys2Proof.Machine

variable {s t : State} {i : Instr}

theorem serve_load_accepted {image : List Byte} (h : serve (.load image) s = .next t) :
    s.phase = .ready ∧ s.loaded = false ∧ t = s.loadImage image := by
  rw [serve_load] at h
  by_cases hp : s.phase = .ready
  · cases hl : s.loaded with
    | true => cases (loadRequest_of_loaded image hp hl).symm.trans h
    | false =>
      cases (loadRequest_of_ready image hp hl).symm.trans h
      exact ⟨hp, rfl, rfl⟩
  · cases (loadRequest_of_not_ready image hp).symm.trans h

theorem step_mem (h : step s = .next t) : t.mem = s.mem := by
  obtain ⟨-, ⟨k, w, rfl⟩ | ⟨-, -, rfl⟩⟩ := step_next_cases h <;> simp

/-! ### A block that has not halted -/

/-- A fetched word lies below 4096, so a skip ends at 4098 at most (R26). -/
theorem State.Live.pcAfter_le (h : s.Live) (hf : s.CanFetch) (hsafe : s.fatalKind i = none) :
    (s.pcAfter i).toNat ≤ 4098 := by
  have hPC : s.PC.toNat + 1 < 4096 := hf
  have h2 : (s.PC + 2).toNat ≤ 4098 := by rw [State.toNat_PC_add_two]; omega
  have h4 : (s.PC + 4).toNat ≤ 4098 := by rw [State.toNat_PC_add_four]; omega
  have haddr (nnn : Addr) : (nnn.setWidth 16).toNat ≤ 4098 := by
    have := toNat_zextAddr nnn
    rw [zextAddr] at this
    omega
  cases i with
  | ret =>
    have hSP := State.fatalKind_ret_eq_none_iff.mp hsafe
    have hle := s.SP_le
    exact (h.stackBound (s.SP.val - 1) (by omega) (by omega)).trans (by decide)
  | jp nnn => exact haddr nnn
  | call nnn => exact haddr nnn
  | se x kk =>
    simp only [State.pcAfter]
    split
    · exact h4
    · exact h2
  | sne x kk =>
    simp only [State.pcAfter]
    split
    · exact h2
    · exact h4
  | _ => exact h2

/-- Only LD I writes I, with a 12-bit address (R28). -/
theorem State.Live.after_I_le (h : s.Live) : (s.after i).I.toNat ≤ 0x0FFF := by
  by_cases hi : ∃ nnn, i = .ldI nnn
  · obtain ⟨nnn, rfl⟩ := hi
    have hI : (s.after (.ldI nnn)).I.toNat = nnn.toNat := toNat_zextAddr nnn
    omega
  · rw [State.after_I s (not_exists.mp hi)]
    exact h.indexBound

theorem State.Live.after_stack_le (h : s.Live) (hf : s.CanFetch) (hsafe : s.fatalKind i = none) :
    ∀ k (hk : k < 16), k < (s.after i).SP.val → ((s.after i).stack[k]'hk).toNat ≤ 4096 := by
  intro k hk hlt
  by_cases hret : i = .ret
  · subst hret
    have hSP : (s.after .ret).SP.val = s.SP.val - 1 := rfl
    exact h.stackBound k hk (by omega)
  by_cases hcall : ∃ nnn, i = .call nnn
  · obtain ⟨nnn, rfl⟩ := hcall
    have hroom := State.fatalKind_call_eq_none_iff.mp hsafe
    rw [State.after_call_of_room nnn hroom] at hlt
    simp only [State.nextPC_SP, State.pushAt_SP] at hlt
    simp only [State.after_call_of_room nnn hroom, State.nextPC_stack, State.pushAt_stack]
    rw [Vector.getElem_set]
    split
    · have hPC : s.PC.toNat + 1 < 4096 := hf
      rw [State.toNat_returnAddress]
      omega
    · exact h.stackBound k hk (by omega)
  · obtain ⟨hSP, hstack⟩ := s.after_stack hret (not_exists.mp hcall)
    simp only [hstack]
    exact h.stackBound k hk (hSP ▸ hlt)

/-- CLS turns every cell off, DRW turns some over, no other instruction writes one (R38). -/
theorem State.Live.after_cells (h : s.Live) (k : Nat) : (s.after i).fb.read k = 0x00 ∨ (s.after i).fb.read k = 0xFF := by
  by_cases hcls : i = .cls
  · subst hcls
    exact .inl (Memory.read_clearScreen k)
  by_cases hdrw : ∃ x y n, i = .drw x y n
  · obtain ⟨x, y, n, rfl⟩ := hdrw
    rw [State.after, State.drawn_fb_read]
    split
    · rcases h.cellsOnOff k with hoff | hon
      · exact .inr (by rw [hoff]; rfl)
      · exact .inl (by rw [hon]; rfl)
    · exact h.cellsOnOff k
  · rw [State.after_fb s hcls fun x y n he => hdrw ⟨x, y, n, he⟩]
    exact h.cellsOnOff k

theorem State.after_PC (hlive : s.phase = .running) (hsafe : s.fatalKind i = none) : (s.after i).PC = s.pcAfter i :=
  exec_PC (exec_of_safe hsafe) (by simpa [State.Completed] using hlive)

theorem State.Live.after (h : s.Live) (hrun : s.phase = .running) (hf : s.CanFetch) (hsafe : s.fatalKind i = none) :
    (s.after i).Live where
  pcBound := State.after_PC hrun hsafe ▸ h.pcAfter_le hf hsafe
  indexBound := h.after_I_le
  stackBound := h.after_stack_le hf hsafe
  cellsOnOff := h.after_cells

theorem State.after_fb_wf (h : s.fb.wf Config.fbCells = true) : (s.after i).fb.wf Config.fbCells = true := by
  by_cases hcls : i = .cls
  · subst hcls
    exact Memory.wf_clearScreen _
  by_cases hdrw : ∃ x y n, i = .drw x y n
  · obtain ⟨x, y, n, rfl⟩ := hdrw
    exact drawSprite_wf s x y n.toNat h
  · rw [State.after_fb s hcls fun x y n he => hdrw ⟨x, y, n, he⟩]
    exact h

/-! ### The invariant -/

theorem State.Inv.fault_eq_none (h : s.Inv) (hlive : s.phase ≠ .halted) : s.fault = none :=
  not_not.mp (mt h.haltedIffFault.mpr hlive)

/-- A fatal fault leaves a halted block, of which the invariant says nothing but the stores' form and the record. -/
theorem State.Inv.raiseFatal (h : s.Inv) (k : FatalKind) (w : Word) : (s.raiseFatal k w).Inv where
  memWf := h.memWf
  fbWf := Memory.wf_tabulate _ _
  haltedIffFault := by simp
  liveUnlessHalted := fun hp => absurd (State.raiseFatal_phase s k w) hp

theorem State.Inv.begun (h : s.Inv) (hlive : s.phase ≠ .halted) : s.begun.Inv where
  memWf := by simpa using h.memWf
  fbWf := by simpa using h.fbWf
  haltedIffFault := by simp [h.fault_eq_none hlive]
  liveUnlessHalted := fun _ =>
    have hl := h.liveUnlessHalted hlive
    ⟨by simpa using hl.pcBound, by simpa using hl.indexBound, by simpa using hl.stackBound,
      by simpa using hl.cellsOnOff⟩

theorem State.Inv.after (h : s.Inv) (hrun : s.phase = .running) (hf : s.CanFetch) (hsafe : s.fatalKind i = none) :
    (s.after i).Inv where
  memWf := by simpa using h.memWf
  fbWf := State.after_fb_wf h.fbWf
  haltedIffFault := by simpa using h.haltedIffFault
  liveUnlessHalted := fun _ => (h.liveUnlessHalted (by simp [hrun])).after hrun hf hsafe

theorem State.Inv.step (h : s.Inv) (hstep : step s = .next t) : t.Inv := by
  obtain ⟨hlive, ⟨k, w, rfl⟩ | ⟨hf, hsafe, rfl⟩⟩ := step_next_cases hstep
  · exact (h.begun hlive).raiseFatal k w
  · have hbegun : s.begun.CanFetch := by simpa [State.CanFetch] using hf
    exact (h.begun hlive).after s.begun_phase hbegun (by simpa using hsafe)

theorem State.Inv.reset : State.reset.Inv where
  memWf := rfl
  fbWf := rfl
  haltedIffFault := by simp
  liveUnlessHalted := fun _ => ⟨by decide, by decide, fun k _ hk => absurd hk (Nat.not_lt_zero k), fun _ => .inl rfl⟩

/-- Of memory the invariant asks the canonical form; that 3584 bytes from 512 on fit keeps it. -/
theorem State.Inv.loadImage (h : s.Inv) (image : List Byte) : (s.loadImage image).Inv :=
  { h with
    memWf := Memory.wf_writeBytes _ h.memWf _ (by simp; omega)
    liveUnlessHalted := fun hlive => { h.liveUnlessHalted hlive with } }

/-- The invariant does not speak of the schedule and the counter of the free values. -/
theorem State.Inv.withSchedule (h : s.Inv) (schedule : List StepInput) (draws : Nat) :
    { s with schedule := schedule, draws := draws }.Inv :=
  { h with liveUnlessHalted := fun hlive => { h.liveUnlessHalted hlive with } }

/-! ### The clock's invariant -/

/-- The reading a step takes is not before the last one, and the later ones are not before it. -/
theorem State.ClockInv.nextInput (h : s.ClockInv) :
    s.now ≤ s.nextInput.now ∧ ReadingsAscend s.nextInput.now s.schedule.tail := by
  obtain ⟨-, hascend⟩ := h
  unfold State.nextInput
  cases hs : s.schedule with
  | nil => exact ⟨Nat.le_add_right .., trivial⟩
  | cons inp rest => rwa [hs] at hascend

theorem State.tick_eq (s : State) : s.tick = { s with DT := s.tick.DT, lastTick := s.tick.lastTick } := by
  unfold State.tick
  split <;> rfl

/-- The tick is due in the sampled state exactly when it is due at the step's reading (R91). -/
theorem State.begun_of_due (h : s.TickDue s.nextInput.now) :
    s.begun.DT = s.DT - 1 ∧ s.begun.lastTick = s.nextInput.now := by
  rw [State.begun, State.tick_of_due (s.popSchedule.sample s.nextInput) h]
  exact ⟨rfl, rfl⟩

theorem State.begun_of_not_due (h : ¬ s.TickDue s.nextInput.now) :
    s.begun.DT = s.DT ∧ s.begun.lastTick = s.lastTick := by
  rw [State.begun, State.tick_of_not_due (s.popSchedule.sample s.nextInput) h]
  exact ⟨rfl, rfl⟩

theorem State.begun_lastTick_le (h : s.ClockInv) : s.begun.lastTick ≤ s.nextInput.now := by
  by_cases hdue : s.TickDue s.nextInput.now
  · exact (State.begun_of_due hdue).2.le
  · rw [(State.begun_of_not_due hdue).2]
    exact h.1.trans h.nextInput.1

end Sys2Proof.Machine
end

section
/-! PROOFS. The statements on the invariants. -/

namespace Sys2Proof.Machine

/-- Settles O56: the beginning of the step keeps the invariant, and so do both of the step's outcomes. -/
theorem stepKeepsInvariant : Obligations.StepKeepsInvariant := fun _ _ h hstep => h.step hstep

/-- Settles O57: by the request; a step request is a step of the state with its input scheduled. -/
theorem requestsKeepInvariant : Obligations.RequestsKeepInvariant := by
  intro req s t h hserve
  cases req with
  | reset =>
    cases hserve
    exact State.Inv.reset.withSchedule s.schedule s.draws
  | load image =>
    obtain ⟨-, -, rfl⟩ := serve_load_accepted hserve
    exact h.loadImage image
  | step inp => exact (h.withSchedule (inp :: s.schedule) s.draws).step ((serve_step s inp).symm.trans hserve)

/-- Settles O58: the last decrement is the one before or this step's reading, and the readings ascend. -/
theorem stepKeepsClockInvariant : Obligations.StepKeepsClockInvariant := by
  intro s t h hstep hc
  obtain ⟨-, -, rfl⟩ := after_of_step_completed hstep hc
  constructor
  · simpa using State.begun_lastTick_le h
  · simpa using h.nextInput.2

/-- Settles O2: at reset the stores and the stack are empty and the clock stands at 0. -/
theorem resetMeetsInvariants : Obligations.ResetMeetsInvariants :=
  ⟨.reset, Nat.le_refl 0, trivial⟩

/-- Settles O15: a step writes no memory, and a load is accepted only while Ready. -/
theorem noStepWritesMemory : Obligations.NoStepWritesMemory := by
  refine ⟨fun s t hstep => .of_mem_eq (step_mem hstep), fun req s t hserve => ?_⟩
  cases req with
  | reset => exact .inr (.inl rfl)
  | load image => exact .inr (.inr ⟨image, rfl, (serve_load_accepted hserve).1⟩)
  | step inp => exact .inl (.of_mem_eq (step_mem (s := { s with schedule := inp :: s.schedule }) hserve))

end Sys2Proof.Machine
end

section
/-! SUPPORT. What an instruction does not read: the dead stack slots (10_state.md R31) and the step's inputs
(40_step.md R101). Each is a replaced part of the state that `after` carries along. -/

namespace Sys2Proof.Machine

variable {s t s' : State} {i : Instr}

/-! ### What a sprite is drawn from -/

theorem spritePixels_congr (hmem : t.mem = s.mem) (hI : t.I = s.I) (cx cy : Byte) (k i : Nat) :
    spritePixels t cx cy k i = spritePixels s cx cy k i := by
  induction k generalizing i with
  | zero => rfl
  | succ k ih => simp only [spritePixels, State.rowAddress, hmem, hI, ih]

theorem drawSprite_congr (hmem : t.mem = s.mem) (hI : t.I = s.I) (hV : t.V = s.V) (hfb : t.fb = s.fb) (x y : Reg)
    (n : Nat) : drawSprite t x y n = drawSprite s x y n := by
  simp only [drawSprite, drawRows_eq, spritePixels_congr hmem hI, State.readV, hV, hfb]

/-! ### The inputs of a step -/

/-- The state with other inputs of the step. -/
def State.withInputs (s : State) (now : Nat) (rnd : Byte) : State := { s with now := now, rnd := rnd }

theorem State.fatalKind_withInputs (now : Nat) (rnd : Byte) : (s.withInputs now rnd).fatalKind i = s.fatalKind i := by
  cases i <;> rfl

theorem State.after_withInputs (now : Nat) {rnd : Byte} (hrnd : (∀ x kk, i ≠ .rnd x kk) ∨ rnd = s.rnd)
    (hsafe : s.fatalKind i = none) : (s.withInputs now rnd).after i = (s.after i).withInputs now rnd := by
  cases i with
  | rnd x kk =>
    obtain hne | rfl := hrnd
    · exact absurd rfl (hne x kk)
    · rfl
  | call nnn =>
    have hroom := State.fatalKind_call_eq_none_iff.mp hsafe
    rw [State.after_call_of_room nnn hroom, State.after_call_of_room (s := s.withInputs now rnd) nnn hroom]
    rfl
  | drw x y n =>
    rw [State.after, State.drawn, drawSprite_congr (s := s) (t := s.withInputs now rnd) rfl rfl rfl rfl]
    rfl
  | _ => rfl

/-- Other inputs of a step change the answer in these inputs only (R101). -/
theorem exec_withInputs (now : Nat) {rnd : Byte} (hrnd : (∀ x kk, i ≠ .rnd x kk) ∨ rnd = s.rnd)
    (h : exec i s = .next t) :
    ∃ u, exec i (s.withInputs now rnd) = .next u ∧ u.phase = t.phase ∧ u.fault = t.fault ∧
      (t.phase ≠ .halted → u = t.withInputs now rnd) := by
  rcases exec_cases h with ⟨k, hk, rfl⟩ | ⟨hsafe, rfl⟩
  · exact ⟨_, exec_of_fatal ((State.fatalKind_withInputs now rnd).trans hk), rfl, rfl, fun hlive => absurd rfl hlive⟩
  · refine ⟨_, exec_of_safe ((State.fatalKind_withInputs now rnd).trans hsafe), ?_⟩
    rw [State.after_withInputs now hrnd hsafe]
    exact ⟨rfl, rfl, fun _ => rfl⟩

/-! ### The dead stack slots -/

/-- The state with other stack slots. -/
def State.withStack (s : State) (stack : Vector CodeAddr Config.stackDepth) : State := { s with stack := stack }

theorem sameButDeadSlots_iff :
    SameButDeadSlots s t ↔
      ∃ stack, t = s.withStack stack ∧ ∀ k (h : k < 16), k < s.SP.val → s.stack[k]'h = stack[k]'h := by
  constructor
  · rintro ⟨hslots, hrest⟩
    exact ⟨t.stack, hrest.symm, hslots⟩
  · rintro ⟨stack, rfl, hslots⟩
    exact ⟨hslots, rfl⟩

theorem State.fatalKind_withStack (stack : Vector CodeAddr Config.stackDepth) :
    (s.withStack stack).fatalKind i = s.fatalKind i := by
  cases i <;> rfl

theorem State.tick_withStack (stack : Vector CodeAddr Config.stackDepth) :
    (s.withStack stack).tick = s.tick.withStack stack := by
  by_cases hdue : s.TickDue s.now
  · rw [State.tick_of_due s hdue, State.tick_of_due (s.withStack stack) hdue]
    rfl
  · rw [State.tick_of_not_due s hdue, State.tick_of_not_due (s.withStack stack) hdue]

theorem State.begun_withStack (stack : Vector CodeAddr Config.stackDepth) :
    (s.withStack stack).begun = s.begun.withStack stack :=
  State.tick_withStack (s := s.popSchedule.sample s.nextInput) stack

theorem State.after_withStack (stack : Vector CodeAddr Config.stackDepth) (hret : i ≠ .ret)
    (hcall : ∀ nnn, i ≠ .call nnn) : (s.withStack stack).after i = (s.after i).withStack stack := by
  cases i with
  | ret => exact absurd rfl hret
  | call nnn => exact absurd rfl (hcall nnn)
  | drw x y n =>
    rw [State.after, State.drawn, drawSprite_congr (s := s) (t := s.withStack stack) rfl rfl rfl rfl]
    rfl
  | _ => rfl

theorem SameButDeadSlots.begun (h : SameButDeadSlots s t) : SameButDeadSlots s.begun t.begun := by
  obtain ⟨stack, rfl, hslots⟩ := sameButDeadSlots_iff.mp h
  exact sameButDeadSlots_iff.mpr ⟨stack, State.begun_withStack stack, by simpa using hslots⟩

/-- RET reads the top slot and CALL writes the first dead one, alike in both states (R30, R31). -/
theorem SameButDeadSlots.after (h : SameButDeadSlots s t) (hsafe : s.fatalKind i = none) :
    SameButDeadSlots (s.after i) (t.after i) := by
  obtain ⟨stack, rfl, hslots⟩ := sameButDeadSlots_iff.mp h
  rw [sameButDeadSlots_iff]
  by_cases hret : i = .ret
  · subst hret
    have hSP := State.fatalKind_ret_eq_none_iff.mp hsafe
    have hle := s.SP_le
    have htop : (s.withStack stack).top = s.top := (hslots (s.SP.val - 1) (by omega) (by omega)).symm
    refine ⟨stack, ?_, fun k hk hlt => hslots k hk (hlt.trans_le (Nat.sub_le ..))⟩
    rw [State.after, htop]
    rfl
  by_cases hcall : ∃ nnn, i = .call nnn
  · obtain ⟨nnn, rfl⟩ := hcall
    have hroom := State.fatalKind_call_eq_none_iff.mp hsafe
    rw [State.after_call_of_room nnn hroom, State.after_call_of_room (s := s.withStack stack) nnn hroom]
    refine ⟨stack.set s.SP.val s.returnAddress hroom, rfl, fun k hk hlt => ?_⟩
    simp only [State.nextPC_SP, State.pushAt_SP] at hlt
    simp only [State.nextPC_stack, State.pushAt_stack, Vector.getElem_set]
    split
    · rfl
    · exact hslots k hk (by omega)
  · have hcall := not_exists.mp hcall
    obtain ⟨hSP, hstack⟩ := s.after_stack hret hcall
    refine ⟨stack, State.after_withStack stack hret hcall, ?_⟩
    rw [hSP]
    simpa only [hstack] using hslots

/-- What two next states that differed in dead slots share: all but such slots, or, where the block has halted, what a
fatal fault specifies (R104). -/
def AnswersAlike (s' t' : State) : Prop :=
  (s'.phase = .halted → t'.phase = .halted ∧ t'.fault = s'.fault ∧ t'.mem = s'.mem) ∧
  (s'.phase ≠ .halted → SameButDeadSlots s' t')

theorem SameButDeadSlots.answersAlike (h : SameButDeadSlots s t) : AnswersAlike s t := by
  refine ⟨fun hhalted => ?_, fun _ => h⟩
  obtain ⟨stack, rfl, -⟩ := sameButDeadSlots_iff.mp h
  exact ⟨hhalted, rfl, rfl⟩

theorem SameButDeadSlots.raiseFatal (h : SameButDeadSlots s t) (k : FatalKind) (w : Word) :
    AnswersAlike (s.raiseFatal k w) (t.raiseFatal k w) := by
  obtain ⟨stack, rfl, -⟩ := sameButDeadSlots_iff.mp h
  exact ⟨fun _ => ⟨rfl, rfl, rfl⟩, fun hlive => absurd rfl hlive⟩

theorem SameButDeadSlots.exec (h : SameButDeadSlots s t) (hexec : exec i s = .next s') :
    ∃ t', exec i t = .next t' ∧ AnswersAlike s' t' := by
  have hkind : t.fatalKind i = s.fatalKind i := by
    obtain ⟨stack, rfl, -⟩ := sameButDeadSlots_iff.mp h
    exact State.fatalKind_withStack stack
  rcases exec_cases hexec with ⟨k, hk, rfl⟩ | ⟨hsafe, rfl⟩
  · exact ⟨_, exec_of_fatal (hkind.trans hk), h.raiseFatal k _⟩
  · exact ⟨_, exec_of_safe (hkind.trans hsafe), (h.after hsafe).answersAlike⟩

/-- Both states fetch the same word, or none. -/
theorem SameButDeadSlots.step (h : SameButDeadSlots s t) (hstep : step s = .next s') :
    ∃ t', step t = .next t' ∧ AnswersAlike s' t' := by
  have hbegun := h.begun
  obtain ⟨stack, rfl, -⟩ := sameButDeadSlots_iff.mp h
  obtain ⟨hlive, ⟨hf, hexec⟩ | ⟨hf, rfl⟩⟩ := step_cases hstep
  · rw [step_of_canFetch (s.withStack stack) hlive hf]
    exact hbegun.exec hexec
  · exact ⟨_, step_of_not_canFetch (s.withStack stack) hlive hf, hbegun.raiseFatal _ _⟩

/-- A load is accepted by both states, and writes no slot. -/
theorem SameButDeadSlots.load {image : List Byte} (h : SameButDeadSlots s t) (hload : serve (.load image) s = .next s') :
    ∃ t', serve (.load image) t = .next t' ∧ AnswersAlike s' t' := by
  obtain ⟨hready, hempty, rfl⟩ := serve_load_accepted hload
  obtain ⟨stack, rfl, hslots⟩ := sameButDeadSlots_iff.mp h
  have hloaded : SameButDeadSlots (s.loadImage image) ((s.withStack stack).loadImage image) :=
    sameButDeadSlots_iff.mpr ⟨stack, rfl, hslots⟩
  exact ⟨_, serve_load_of_ready (s := s.withStack stack) image hready hempty, hloaded.answersAlike⟩

/-- Reset reads the schedule and the counter of the free values only. -/
theorem SameButDeadSlots.reset (h : SameButDeadSlots s t) : AnswersAlike s.resetInput t.resetInput := by
  obtain ⟨stack, rfl, -⟩ := sameButDeadSlots_iff.mp h
  exact SameButDeadSlots.answersAlike ⟨fun _ _ _ => rfl, rfl⟩

theorem SameButDeadSlots.withSchedule (h : SameButDeadSlots s t) (schedule : List StepInput) :
    SameButDeadSlots { s with schedule := schedule } { t with schedule := schedule } := by
  obtain ⟨stack, rfl, hslots⟩ := sameButDeadSlots_iff.mp h
  exact sameButDeadSlots_iff.mpr ⟨stack, rfl, hslots⟩

end Sys2Proof.Machine
end

section
/-! PROOFS. The statements on the dead stack slots and on the inputs. -/

namespace Sys2Proof.Machine

/-- Settles O59: by the request; a step request is a step of the state with its input scheduled. -/
theorem deadStackSlotsAreUnobservable : Obligations.DeadStackSlotsAreUnobservable := by
  intro req s t s' h hserve
  cases req with
  | reset =>
    cases hserve
    exact ⟨_, serve_reset t, h.reset⟩
  | load image => exact h.load hserve
  | step inp =>
    rw [serve_step] at hserve ⊢
    have hstate : t.schedule = s.schedule := by rw [← h.2]
    rw [hstate]
    exact (h.withSchedule (inp :: s.schedule)).step hserve

/-- Settles O21: RND is met by the inputs with the old random byte. -/
theorem inputsReadOnlyWhereStated : Obligations.InputsReadOnlyWhereStated := by
  refine ⟨fun i s t now h => ?_, fun i s t now rnd hi h => exec_withInputs now (.inl hi) h⟩
  obtain ⟨u, hexec, hphase, hfault, hsame⟩ := exec_withInputs now (.inr rfl) h
  refine ⟨u, hexec, hphase, hfault, fun hlive => ?_⟩
  obtain ⟨k, -, rfl⟩ | ⟨-, rfl⟩ := exec_cases h
  · exact absurd rfl hlive
  · rw [hsame hlive, State.withInputs, ← State.after_rnd s i]

end Sys2Proof.Machine
end

section
/-! SUPPORT. A canonical store is determined by its reads (20_memory.md). -/

namespace Sys2Proof.Machine

variable {size lo : Nat} {m m' : Memory}

theorem Memory.wfFrom_cons_iff {a : Nat} {b : Byte} :
    Memory.wfFrom size lo ((a, b) :: m) = true ↔
      lo ≤ a ∧ a < size ∧ b ≠ Memory.unlisted ∧ Memory.wfFrom size (a + 1) m = true := by
  simp [Memory.wfFrom, and_assoc]

theorem Memory.read_head (a : Nat) (b : Byte) : Memory.read ((a, b) :: m) a = b := if_pos rfl

theorem Memory.read_tail {a k : Nat} (b : Byte) (h : k ≠ a) : Memory.read ((a, b) :: m) k = m.read k := if_neg h

/-- A canonical store lists an address only if it does not read as unlisted. -/
theorem Memory.read_ne_unlisted {a : Nat} {b : Byte} (h : Memory.wfFrom size lo ((a, b) :: m) = true) :
    Memory.read ((a, b) :: m) a ≠ Memory.unlisted := by
  rw [Memory.read_head]
  exact (Memory.wfFrom_cons_iff.mp h).2.2.1

/-- The first address of a canonical store is the least that does not read as unlisted. -/
theorem Memory.head_le {a k : Nat} {b : Byte} (h : Memory.wfFrom size lo ((a, b) :: m) = true)
    (hk : Memory.read ((a, b) :: m) k ≠ Memory.unlisted) : a ≤ k := by
  obtain ⟨-, ha, hb, hm⟩ := Memory.wfFrom_cons_iff.mp h
  by_contra hlt
  exact hk (Memory.read_below (Memory.wfFrom_cons_iff.mpr ⟨Nat.le_refl a, ha, hb, hm⟩) (Nat.lt_of_not_le hlt))

theorem Memory.eq_of_read_eq (h : m.wfFrom size lo = true) (h' : m'.wfFrom size lo = true)
    (hread : ∀ k, m.read k = m'.read k) : m = m' := by
  induction m generalizing lo m' with
  | nil =>
    cases m' with
    | nil => rfl
    | cons c rest => exact absurd (hread c.1).symm (Memory.read_ne_unlisted h')
  | cons c rest ih =>
    obtain ⟨a, b⟩ := c
    cases m' with
    | nil => exact absurd (hread a) (Memory.read_ne_unlisted h)
    | cons c' rest' =>
      obtain ⟨a', b'⟩ := c'
      have hle : a ≤ a' := Memory.head_le h (hread a' ▸ Memory.read_ne_unlisted h')
      have hge : a' ≤ a := Memory.head_le h' (hread a ▸ Memory.read_ne_unlisted h)
      obtain rfl : a = a' := Nat.le_antisymm hle hge
      obtain rfl : b = b' := by simpa only [Memory.read_head] using hread a
      obtain ⟨-, -, -, hrest⟩ := Memory.wfFrom_cons_iff.mp h
      obtain ⟨-, -, -, hrest'⟩ := Memory.wfFrom_cons_iff.mp h'
      refine congrArg _ (ih hrest hrest' fun k => ?_)
      by_cases hk : k = a
      · rw [hk, Memory.read_below hrest (Nat.lt_succ_self a), Memory.read_below hrest' (Nat.lt_succ_self a)]
      · simpa only [Memory.read_tail b hk] using hread k

end Sys2Proof.Machine
end

section
/-! SUPPORT. A sprite drawn twice (46_draw.md R148, R149). -/

namespace Sys2Proof.Machine

variable {s : State} {x y : Reg} {n : Nibble}

theorem State.readV_drawn_other (s : State) (x y : Reg) (n : Nibble) {r : Reg} (h : r ≠ 15) :
    (s.drawn x y n).readV r = s.readV r :=
  State.readV_writeV_other _ VF r _ h

/-- A sprite away from VF covers the same cells after it has been drawn. -/
theorem spriteCovers_drawn_iff (hx : x ≠ 15) (hy : y ≠ 15) {c r : Nat} :
    SpriteCovers (s.drawn x y n) x y n c r ↔ SpriteCovers s x y n c r := by
  rw [SpriteCovers, State.readV_drawn_other s x y n hx, State.readV_drawn_other s x y n hy]
  rfl

theorem State.drawn_drawn_fb_read (hx : x ≠ 15) (hy : y ≠ 15) (k : Nat) :
    ((s.drawn x y n).drawn x y n).fb.read k = s.fb.read k := by
  have hpixels : spritePixels (s.drawn x y n) ((s.drawn x y n).readV x) ((s.drawn x y n).readV y) n.toNat 0 =
      spritePixels s (s.readV x) (s.readV y) n.toNat 0 := by
    rw [State.readV_drawn_other s x y n hx, State.readV_drawn_other s x y n hy]
    exact spritePixels_congr (s := s) (t := s.drawn x y n) rfl rfl _ _ _ _
  rw [State.drawn_fb_read, hpixels, State.drawn_fb_read]
  split
  · rw [BitVec.xor_assoc, BitVec.xor_self, BitVec.xor_zero]
  · rfl

end Sys2Proof.Machine
end

section
/-! PROOFS. The statements on canonical stores and on the sprite drawn twice. -/

namespace Sys2Proof.Machine

/-- Settles O60: both stores begin with the least address that is not unlisted, and so on down the list. -/
theorem canonicalStoresAreDetermined : Obligations.CanonicalStoresAreDetermined := fun _ _ _ =>
  Memory.eq_of_read_eq

/-- Settles O50: the second draw turns the same cells over, and one that was off is on when the second draw meets it. -/
theorem drwTwiceRestoresScreen : Obligations.DrwTwiceRestoresScreen := by
  intro x y n s hin hx hy
  have hin' : SpriteInMemory (s.drawn x y n) n := hin
  refine ⟨s.drawn x y n, (s.drawn x y n).drawn x y n, exec_drw_of_inMemory x y hin, exec_drw_of_inMemory x y hin',
    State.drawn_drawn_fb_read hx hy, ?collision⟩
  case collision =>
    rintro ⟨c, r, hcov, hoff⟩
    refine State.drawn_flag_of_collision ⟨c, r, (spriteCovers_drawn_iff hx hy).mpr hcov, ?_⟩
    rw [State.drawn_fb_read_covered hcov, hoff]
    rfl

end Sys2Proof.Machine
end

section
/-! SUPPORT. The instruction that raises a fatal fault, and the beginning of the step. -/

namespace Sys2Proof.Machine

variable {s : State} {i : Instr}

theorem faultOutput_raiseFatal (s : State) (k : FatalKind) (w : Word) :
    faultOutput (s.raiseFatal k w) = (k.code, s.PC, w) := rfl

/-- All an instruction that raises a fatal fault does, as far as it is specified (R104, R160). -/
theorem exec_fatal_spec {k : FatalKind} {w : Word} (h : s.fatalKind i = some k) (hw : encode i = w) :
    ∃ t, exec i s = .next t ∧ t.phase = .halted ∧ t.fault = some ⟨k, s.PC, w⟩ ∧ faultOutput t = (k.code, s.PC, w) ∧
      SameMem s t := by
  subst hw
  exact ⟨_, exec_of_fatal h, rfl, rfl, faultOutput_raiseFatal s k _, .of_mem_eq rfl⟩

theorem encode_call (nnn : Addr) : encode (.call nnn) = BitVec.ofNat 16 (0x2000 + nnn.toNat) := by
  have hword : (encode (.call nnn)).toNat = 0x2000 + nnn.toNat := toNat_encodeNNN 0x2 nnn
  rw [← hword, BitVec.ofNat_toNat, BitVec.setWidth_eq]

theorem exec_ret_of_occupied (h : s.SP.val ≠ 0) : exec .ret s = .next (s.dropTop.nextPC (some s.top)) :=
  execRet_of_occupied s h

theorem exec_call_of_room (nnn : Addr) (h : s.SP.val < 16) :
    exec (.call nnn) s = .next ((s.pushAt s.returnAddress h).nextPC (some (zextAddr nnn))) :=
  execCall_of_room s nnn h

theorem exec_unknown (w : Word) (s : State) :
    exec (.unknown w) s = .next ((s.warn (.unknownInstruction w s.PC)).nextPC none) := rfl

theorem sameSlotsBelow_pushAt (v : CodeAddr) (h : s.SP.val < 16) : SameSlotsBelow s.SP.val s (s.pushAt v h) := by
  intro k hk hlt
  simp only [State.pushAt_stack]
  exact Vector.getElem_set_ne _ _ (Nat.ne_of_gt hlt)

theorem State.top_pushAt (v : CodeAddr) (h : s.SP.val < 16) : (s.pushAt v h).top = v := by
  simp [State.top]

end Sys2Proof.Machine
end

section
/-! PROOFS. The statements on the step's beginning and fetch, and on the single outcomes of RET, CALL, DRW and the
unknown word. -/

namespace Sys2Proof.Machine

/-- Settles O8: the fetch succeeds, and two bytes make their word most significant first. -/
theorem stepRunsDecodedInstruction : Obligations.StepRunsDecodedInstruction := fun s hlive hf =>
  ⟨step_of_canFetch s hlive hf, toNat_wordOfBytes _ _⟩

/-- Settles O9: the tick's two cases, and the two fields it writes beside the sampled inputs. -/
theorem stepBeginsWithTick : Obligations.StepBeginsWithTick := fun s =>
  ⟨State.begun_of_due, State.begun_of_not_due, (s.popSchedule.sample s.nextInput).tick_eq⟩

/-- Settles O10: a request is the step of the state with its input scheduled first. -/
theorem scheduledInputsAreTheStepInputs : Obligations.ScheduledInputsAreTheStepInputs := by
  intro s inp rest hschedule
  rw [serve_step, ← hschedule]

/-- Settles O11: from PC = 4095 on the second byte is past memory, so nothing is fetched. -/
theorem fetchBeyondMemoryHalts : Obligations.FetchBeyondMemoryHalts := by
  intro s hlive hPC
  have hf : ¬ s.CanFetch := by
    rw [State.CanFetch, Config.memSize_eq]
    omega
  refine ⟨_, step_of_not_canFetch s hlive hf, rfl, ?_, ?_, rfl, .of_mem_eq (by simp)⟩
  · rw [State.raiseFatal_fault, State.begun_PC]
  · rw [faultOutput_raiseFatal, State.begun_PC]
    rfl

/-- Settles O23: with an occupied slot RET is the pop and the jump to the popped address; no slot is written. -/
theorem retPopsIntoPc : Obligations.RetPopsIntoPc := by
  intro s hSP
  exact ⟨_, exec_ret_of_occupied hSP, rfl, fun _ => rfl, fun _ _ _ => rfl, .of_V_eq rfl, rfl, ⟨rfl, rfl⟩, fun _ => rfl,
    .of_mem_eq rfl, ⟨rfl, rfl⟩, rfl, rfl, rfl, rfl, rfl, rfl⟩

/-- Settles O24: an empty stack is the one fault of RET. -/
theorem retOnEmptyStackHalts : Obligations.RetOnEmptyStackHalts := fun _ hSP => exec_fatal_spec (if_pos hSP) rfl

/-- Settles O26: the push writes the slot at SP, above the occupied ones. -/
theorem callPushesReturnAddress : Obligations.CallPushesReturnAddress := by
  intro nnn s hroom
  refine ⟨_, exec_call_of_room nnn hroom, toNat_zextAddr nnn, rfl, ?pushed, sameSlotsBelow_pushAt _ hroom, .of_V_eq rfl,
    rfl, ⟨rfl, rfl⟩, fun _ => rfl, .of_mem_eq rfl, ⟨rfl, rfl⟩, rfl, rfl, rfl, rfl, rfl, rfl⟩
  case pushed =>
    simp only [State.nextPC_stack, State.pushAt_stack, Vector.getElem_set_self]
    exact s.toNat_returnAddress

/-- Settles O27: a full stack is the one fault of CALL. -/
theorem callOnFullStackHalts : Obligations.CallOnFullStackHalts := fun nnn _ hSP =>
  exec_fatal_spec (if_pos hSP) (encode_call nnn)

/-- Settles O28: RET pops the address that CALL has pushed. -/
theorem callThenRetResumesAfterCall : Obligations.CallThenRetResumesAfterCall := by
  intro nnn s hroom
  refine ⟨_, _, exec_call_of_room nnn hroom, exec_ret_of_occupied (Nat.succ_ne_zero _), ?_, rfl⟩
  exact State.top_pushAt s.returnAddress hroom

/-- Settles O46: one write of the warning with the PC's advance is the whole change. -/
theorem unknownOnlyWarnsAndAdvances : Obligations.UnknownOnlyWarnsAndAdvances := fun w s =>
  ⟨_, exec_unknown w s, rfl, State.nextPC_none_PC _, .of_V_eq rfl, rfl, ⟨rfl, rfl⟩, .of_stack_eq rfl rfl, fun _ => rfl,
    .of_mem_eq rfl, ⟨rfl, rfl⟩, rfl, rfl, rfl, rfl, rfl⟩

/-- Settles O48: a row past memory is the one fault of DRW. -/
theorem drwBeyondMemoryHalts : Obligations.DrwBeyondMemoryHalts := fun x y n s hn hI =>
  exec_fatal_spec (if_pos ((s.spriteOutOfBounds_iff n.toNat).mpr ⟨hn, hI⟩)) (encode_drw x y n)

/-- Settles O49: a sprite of no rows has no row address and no pixel. -/
theorem drwZeroRowsClearsFlag : Obligations.DrwZeroRowsClearsFlag := by
  intro x y s
  have hin : SpriteInMemory s 0 := fun i hi => absurd hi (Nat.not_lt_zero i)
  exact ⟨s.drawn x y 0, exec_drw_of_inMemory x y hin, State.drawn_readV_flag s x y 0, State.nextPC_none_PC _,
    s.drawn_frame x y 0⟩

end Sys2Proof.Machine
end
